-- ==== Sys2Proof/Word.lean ====
section
/-! DEFINITION. The two basic types of the core: the 8-bit unsigned value (the spec's `u8`, rule R9) and
the number of a general register (rule R21). -/

namespace Sys2Proof

/-- The spec's `u8`: a register, a memory cell, the program counter, the flags register, an operand byte
(rules R9, R10). Every one is unsigned. -/
abbrev Byte := BitVec 8

/-- The number `i` of a general register `x[i]`, 0 to 7 (rule R21). -/
abbrev Reg := Fin 8

end Sys2Proof
end

