-- ==== Sys2Proof/Machine/Flags.lean ====
section
/-! DEFINITION. The flags register's bits and the one flag computation of the core, that of CMP
(10_state.md rule R28, 43_alu.md rule R108). -/

namespace Sys2Proof.Machine

/-- E, equal: bit 0 (rule R28). -/
def flagE (fl : Byte) : Bool := fl.getLsbD 0

/-- G, greater: bit 1 (rule R28). -/
def flagG (fl : Byte) : Bool := fl.getLsbD 1

/-- L, less: bit 2 (rule R28). -/
def flagL (fl : Byte) : Bool := fl.getLsbD 2

/-- All eight bits CMP writes for the register values `a` and `b`, compared as unsigned integers (rule R108).
UNVERIFIED: unsigned is the spec's decision D28 (entry 21), unsafe; bits 7:3 are 0 by D7 (entry 7). -/
def compareFlags (a b : Byte) : Byte :=
  if a.toNat = b.toNat then 0x01
  else if a.toNat > b.toNat then 0x02
  else 0x04

end Sys2Proof.Machine
end

