-- ==== Sys2Proof/Config.lean ====
section
/-! DEFINITION. What an implementation of the core fixes: the parameters of 00_scope.md rule R8 and the
switch of 92_eei_decisions.md D10. The values this hardware takes are `Machine.config`
(Sys2Proof/Machine/Params.lean). There is no free value: the spec leaves no result undefined. -/

namespace Sys2Proof

/-- The parameters the source leaves open (rule R8), each a field so that a claim can name it. -/
structure Config where
  /-- `SP_INDEX`: the general register used as stack pointer (D1). -/
  spIndex : Reg
  /-- `REG_RESET`: reset value of every general register (D2). -/
  regReset : Byte
  /-- `MEM_RESET`: reset value of every memory cell the loader does not write (D3). -/
  memReset : Byte
  /-- `PC_RESET`: reset value of the program counter (D4). -/
  pcReset : Byte
  /-- `FL_RESET`: reset value of the flags register (D5). -/
  flReset : Byte
  /-- `EXIT_PARSE`: exit status the host reports for ParseError (D16). -/
  exitParse : Nat
  /-- `EXIT_ADDRESS`: exit status the host reports for AddressError (D17). -/
  exitAddress : Nat
  /-- `EXIT_REGISTER`: exit status the host reports for RegisterIndexError (D17). -/
  exitRegister : Nat
  /-- `SP_WRAP`: whether the stack pointer wraps modulo 256 where D10 makes it fault. -/
  spWrap : Bool
  deriving DecidableEq, Repr

end Sys2Proof
end

