-- ==== Sys2Proof/Machine/Params.lean ====
section
/-! DEFINITION. The values this hardware takes for the parameters of 00_scope.md rule R8. -/

namespace Sys2Proof.Machine

/-- The values of 00_scope.md rule R8's table, as 92_eei_decisions.md decides them; `SP_WRAP` is off (D10).
UNVERIFIED: these are the spec's decisions, not statements of its source (entries 3 to 6, 10 and 16).
Unsafe: a claim that leans on one of the values is false of a machine that takes another. -/
def config : Config where
  spIndex := 7
  regReset := 0
  memReset := 0
  pcReset := 0
  flReset := 0
  exitParse := 3
  exitAddress := 4
  exitRegister := 5
  spWrap := false

end Sys2Proof.Machine
end

