-- ==== Sys2Proof/Machine/State.lean ====
section
/-! DEFINITION. The architectural state (10_state.md rule R20), the fatal errors it can record (rules R29,
R30), the reset state (rule R33), and the reasons a step can stop without a next state. -/

namespace Sys2Proof.Machine

/-- The memory: the cells that differ from `MEM_RESET`, as address and byte, at strictly rising addresses.
An address that is not listed reads as `config.memReset` (20_memory.md rules R40, R55). DESIGN CHOICE: the list form
(entry 24), safe. -/
abbrev Memory := List Host.Cell

/-- The kinds of AddressError (10_state.md rule R30, 60_exceptions.md rule R141). -/
inductive AddressKind where
  /-- OPERAND: an operand byte's address exceeds 255 (rule R84). -/
  | operand
  /-- STACK: the stack pointer would leave 0 to 255 (rule R86). -/
  | stack
  /-- NEXT_PC: the fall-through address exceeds 255 (rule R87). -/
  | nextPc
  /-- RETURN: the return address of CALL exceeds 255 (rule R87). -/
  | returnAddress
  deriving DecidableEq, Repr

/-- A fatal error: the cause and the fault record `info` of FAULTED (10_state.md rule R30, 60_exceptions.md
rule R141). -/
inductive FatalError where
  /-- InvalidOpcode: the offending byte and the `pc` at which it was fetched (rule R144). -/
  | invalidOpcode (byte : Byte) (pc : Byte)
  /-- AddressError: the kind of address and the out-of-range value, -1 or 256 (rule R145). -/
  | addressError (kind : AddressKind) (value : Int)
  /-- RegisterIndexError: the offending operand byte (rule R146). -/
  | registerIndexError (byte : Byte)
  deriving DecidableEq, Repr

/-- The run state (10_state.md rule R29). -/
inductive RunState where
  /-- RUNNING: one instruction is executed per step. -/
  | running
  /-- HALTED: a HALT was executed, the clean terminal state. -/
  | halted
  /-- FAULTED(cause, info): a fatal error occurred, the fatal terminal state. -/
  | faulted (error : FatalError)
  deriving DecidableEq, Repr

/-- The architectural state, exactly the tuple `(mem, x, pc, fl, run, out)` of rule R20. -/
structure State where
  /-- 256 cells of 8 bits (rule R40). -/
  mem : Memory
  /-- The eight general registers (rule R21); the stack pointer is one of them (rule R23). -/
  x : Vector Byte 8
  /-- The program counter (rule R25). -/
  pc : Byte
  /-- The flags register: bit 0 equal, bit 1 greater, bit 2 less (rule R28). -/
  fl : Byte
  /-- The run state (rule R29). -/
  run : RunState
  /-- The output trace, oldest value first (rule R31). -/
  out : List Byte
  deriving DecidableEq, Repr

/-- The state at the first step with nothing loaded (10_state.md rule R33; 70_reset_and_hazards.md rule R171).
The values come from `config` (entries 4, 5 and 6). -/
def State.reset : State where
  mem := []
  x := Vector.replicate 8 config.regReset
  pc := config.pcReset
  fl := config.flReset
  run := .running
  out := []

/-- The reasons `step` has no next state. Both say that no step exists because the run has ended
(10_state.md rule R29, 40_execution_cycle.md rule R80). A fatal error of the core is NOT one of them: it is a next state whose
`run` is `faulted` (60_exceptions.md rule R150). DESIGN CHOICE: entries 1 and 2. -/
inductive Fault where
  /-- Raised by `step` alone, in HALTED. Safe: no next state can be concluded from it. -/
  | afterHalt
  /-- Raised by `step` alone, in FAULTED. Safe: no next state can be concluded from it. -/
  | afterFatalError (error : FatalError)
  deriving DecidableEq, Repr

/-- The reasons an instruction is given no meaning. -/
inductive Refusal where
  /-- Raised by `exec` for an instruction of the opcode table that has no meaning yet; no arm does. Safe. -/
  | notModelled (mnemonic : String)
  deriving DecidableEq, Repr

/-- What `exec` and `step` answer. -/
abbrev Result := Host.Outcome State Fault Refusal

end Sys2Proof.Machine
end

