-- ==== Sys2Proof/Machine/Ops.lean ====
section
/-! DEFINITION. The named operations every meaning is made of: reading and writing memory, registers, the
program counter, the flags and the output (00_scope.md rule R10), the range checks 4 and 5
(40_execution_cycle.md rules R86, R87), raising a fatal error (60_exceptions.md rule R150) and committing an
instruction (40_execution_cycle.md rule R88). The spec has no return from an error (60_exceptions.md rule R153), so no
operation beside `raise` undoes it. -/

namespace Sys2Proof.Machine

/-- `v mod 256`, the truncation of rule R22. -/
def trunc8 (v : Nat) : Byte := BitVec.ofNat 8 v

/-! ## Memory (20_memory.md) -/

/-- The byte in cell `a`: the last one written, or the reset value (20_memory.md rules R49, R55). -/
def Memory.get : Memory → Nat → Byte
  | [], _ => config.memReset
  | (k, b) :: m, a => if k = a then b else Memory.get m a

/-- The cell `(a, v)` as a list: no cell where `v` is what an unlisted address reads as. -/
def Memory.cell (a : Nat) (v : Byte) : Memory :=
  if v = config.memReset then [] else [(a, v)]

/-- The memory with `v` in cell `a` and every other cell as it was (20_memory.md rule R44), in canonical form. -/
def Memory.set (a : Nat) (v : Byte) : Memory → Memory
  | [] => Memory.cell a v
  | (k, b) :: m =>
    if a < k then Memory.cell a v ++ (k, b) :: m
    else if a = k then Memory.cell a v ++ m
    else (k, b) :: Memory.set a v m

/-- Stores bytes at rising addresses from `a`; a byte whose address would exceed 255 has no cell (rule R40). -/
def Memory.setFrom (a : Nat) : List Byte → Memory → Memory
  | [], m => m
  | v :: vs, m => if a ≤ 255 then Memory.setFrom (a + 1) vs (Memory.set a v m) else m

/-- The canonical form with every listed address at least `lo`: addresses strictly rising and at most 255, no
cell equal to what an unlisted address reads as. -/
def Memory.wfFrom (lo : Nat) : Memory → Bool
  | [] => true
  | (k, b) :: m => decide (lo ≤ k) && decide (k ≤ 255) && decide (b ≠ config.memReset) && Memory.wfFrom (k + 1) m

/-- The canonical form of a memory. -/
def Memory.wf (m : Memory) : Bool := Memory.wfFrom 0 m

/-- `MemRead(a, 1)` (rule R10). -/
def State.readMem (s : State) (a : Byte) : Byte := Memory.get s.mem a.toNat

/-- `MemWrite(a, 1, v)` (rule R10). -/
def State.writeMem (s : State) (a v : Byte) : State := { s with mem := Memory.set a.toNat v s.mem }

/-! ## Registers, flags, output (10_state.md) -/

/-- `x[r]` (rule R10). No register is hard-wired (rule R21). -/
def State.readReg (s : State) (r : Reg) : Byte := s.x.get r

/-- `x[r] <- v` for a value that is already 8 bits (rule R10). -/
def State.setReg (s : State) (r : Reg) (v : Byte) : State := { s with x := s.x.set r v }

/-- `x[r] <- v` with `v mod 256`: every register write is truncated to 8 bits (rule R22). -/
def State.writeReg (s : State) (r : Reg) (v : Nat) : State := s.setReg r (trunc8 v)

/-- `sp`, the stack pointer `x[SP_INDEX]` (rule R23). -/
def State.sp (s : State) : Byte := s.readReg config.spIndex

/-- `sp <- v` (rule R10). -/
def State.setSp (s : State) (v : Byte) : State := s.setReg config.spIndex v

/-- `pc <- target` (rule R10). -/
def State.setPc (s : State) (target : Byte) : State := { s with pc := target }

/-- `fl <- v`, all 8 bits (rules R10, R28). -/
def State.setFl (s : State) (v : Byte) : State := { s with fl := v }

/-- `run <- r` (rule R29). -/
def State.setRun (s : State) (r : RunState) : State := { s with run := r }

/-- `Output(v)`: append `v` to the output trace (rules R10, R31). UNVERIFIED: D8 (entry 8). -/
def State.output (s : State) (v : Byte) : State := { s with out := s.out ++ [v] }

/-! ## Checks 4 and 5 (40_execution_cycle.md) -/

/-- Check 4 of PUSH and CALL: the decremented stack pointer, AddressError(STACK, -1) at 0 (rules R24, R86).
UNVERIFIED: no wrap is the spec's decision D10 (entry 10), safe; `SP_WRAP` is off. -/
def spDecrement (v : Byte) : Except FatalError Byte :=
  if v = 0 ∧ config.spWrap = false then .error (.addressError .stack (-1)) else .ok (v - 1)

/-- Check 4 of POP and RET: the incremented stack pointer, AddressError(STACK, 256) at 255 (rules R24, R86).
UNVERIFIED: D10 (entry 10), safe. -/
def spIncrement (v : Byte) : Except FatalError Byte :=
  if v = 255 ∧ config.spWrap = false then .error (.addressError .stack 256) else .ok (v + 1)

/-- Check 5: the address `pc + len` of the following instruction, AddressError(kind, 256) where it exceeds 255
(rules R27, R87). UNVERIFIED: that this instruction raises it is the spec's decision D12 (entry 12), safe. -/
def followingPc (s : State) (len : Nat) (kind : AddressKind) : Except FatalError Byte :=
  if s.pc.toNat + len > 255 then .error (.addressError kind 256) else .ok (trunc8 (s.pc.toNat + len))

/-- Check 5 of an instruction that falls through (rules R87, R90 `advance`). -/
def nextPc (s : State) (len : Nat) : Except FatalError Byte := followingPc s len .nextPc

/-! ## Ending an instruction -/

/-- `raise <Error>(info)`: what a fatal error does. `run` becomes FAULTED, nothing is saved and nothing else
changes; control goes nowhere (60_exceptions.md rules R150, R151). This is the core's only exception entry; it is
a next state, the one the spec gives (entry 1). -/
def raise (e : FatalError) (s : State) : Result := .next (s.setRun (.faulted e))

/-- Ends an instruction started in `s`: where a check failed the error is raised in `s` itself, so that the
instruction has no partial effect, else its effects take place (40_execution_cycle.md rules R83, R88). UNVERIFIED: no
partial effect is the spec's decision D15 (entry 15). -/
def commit (s : State) : Except FatalError State → Result
  | .ok t => .next t
  | .error e => raise e s

end Sys2Proof.Machine
end

