-- ==== Sys2Proof/Machine/Operands.lean ====
section
/-! DEFINITION. The operand forms (30_encoding.md rules R63, R64): a register operand, check 3 of the step. An
immediate operand is the whole operand byte and needs no function. There is no other operand form. -/

namespace Sys2Proof.Machine

/-- Check 3: the register an operand byte names, RegisterIndexError(byte) where it exceeds 7; the upper five
bits are not ignored (30_encoding.md rule R63, 40_execution_cycle.md rule R85). UNVERIFIED: that it faults is the spec's
decision D9 (entry 9), safe. -/
def regOperand (b : Byte) : Except FatalError Reg :=
  if h : b.toNat < 8 then .ok ⟨b.toNat, h⟩ else .error (.registerIndexError b)

/-- The operand byte that names a register (30_encoding.md rule R63). -/
def regByte (r : Reg) : Byte := BitVec.ofNat 8 r.val

end Sys2Proof.Machine
end

