-- ==== Sys2Proof/Machine/Alu.lean ====
section
/-! DEFINITION. The ALU and the instructions that invoke it: ADD, MUL, CMP (43_alu.md). -/

namespace Sys2Proof.Machine

/-- The operations of the ALU, exactly three: UnsupportedOperation is not represented (43_alu.md rule R105,
60_exceptions.md rule R148, D29, entry 22). -/
inductive AluOp where
  | add | mult | cmp
  deriving DecidableEq, Repr

/-- One ALU operation over two register indices (43_alu.md rule R105). ADD and MULT compute on integers and
the register write truncates (rules R106, R107, R109); CMP replaces all of `fl` (rule R108). -/
def alu (op : AluOp) (a b : Reg) (s : State) : State :=
  match op with
  | .add => s.writeReg a ((s.readReg a).toNat + (s.readReg b).toNat)
  | .mult => s.writeReg a ((s.readReg a).toNat * (s.readReg b).toNat)
  | .cmp => s.setFl (compareFlags (s.readReg a) (s.readReg b))

/-- A format RR instruction: both register operands are checked, `opa` first, then the fall-through address;
then the ALU acts (43_alu.md rules R105 to R108). -/
def aluInstr (op : AluOp) (regA regB : Byte) (s : State) : Result :=
  commit s do
    let a ← regOperand regA
    let b ← regOperand regB
    let pc' ← nextPc s 3
    pure ((alu op a b s).setPc pc')

/-- ADD regA,regB (rule R106). -/
def execAdd (regA regB : Byte) (s : State) : Result := aluInstr .add regA regB s

/-- MUL regA,regB (rule R107). -/
def execMul (regA regB : Byte) (s : State) : Result := aluInstr .mult regA regB s

/-- CMP regA,regB (rule R108). -/
def execCmp (regA regB : Byte) (s : State) : Result := aluInstr .cmp regA regB s

end Sys2Proof.Machine
end

