-- ==== Sys2Proof/Machine/Stack.lean ====
section
/-! DEFINITION. PUSH and POP (44_stack.md). The stack is full and descending, in the one memory, one cell an
entry (rule R115). -/

namespace Sys2Proof.Machine

/-- A push once its decrement is checked: `sp` becomes `sp'`, then the cell at the new `sp` takes `v`
(44_stack.md rules R115, R116; 45_control_transfer.md rule R126). -/
def pushAt (s : State) (sp' v : Byte) : State := (s.setSp sp').writeMem sp' v

/-- PUSH reg: decrement `sp`, then store `x[reg]`, read after the decrement (rule R116). UNVERIFIED: the
operand naming the stack pointer stores the decremented value by the spec's decision D18 (entry 17), unsafe. -/
def execPush (reg : Byte) (s : State) : Result :=
  commit s do
    let r ← regOperand reg
    let sp' ← spDecrement s.sp
    let pc' ← nextPc s 2
    let v := (s.setSp sp').readReg r
    pure ((pushAt s sp' v).setPc pc')

/-- The value a POP of register `r` increments: the loaded byte where the destination is the stack pointer,
else `sp` (rule R117). UNVERIFIED: D19 (entry 17), unsafe. -/
def popBase (s : State) (r : Reg) : Byte :=
  if r = config.spIndex then s.readMem s.sp else s.sp

/-- POP reg: load `x[reg]` from the cell at `sp`, then increment the stack pointer (rule R117). -/
def execPop (reg : Byte) (s : State) : Result :=
  commit s do
    let r ← regOperand reg
    let sp' ← spIncrement (popBase s r)
    let pc' ← nextPc s 2
    pure (((s.setReg r (s.readMem s.sp)).setSp sp').setPc pc')

end Sys2Proof.Machine
end

