-- ==== Sys2Proof/Machine/Control.lean ====
section
/-! DEFINITION. CALL, RET, JEQ, JNE, JMP (45_control_transfer.md). Every target is an absolute address from a
register or from the stack (rules R65, R125). -/

namespace Sys2Proof.Machine

/-- CALL reg: push `pc + 2`, then `pc <- x[reg]`, read after the decrement (rule R126; C6, entry 25).
UNVERIFIED: the operand naming the stack pointer jumps to the decremented value by the spec's decision D20
(entry 17), unsafe. -/
def execCall (reg : Byte) (s : State) : Result :=
  commit s do
    let r ← regOperand reg
    let sp' ← spDecrement s.sp
    let ret ← followingPc s 2 .returnAddress
    let t := pushAt s sp' ret
    pure (t.setPc (t.readReg r))

/-- RET: `pc` becomes the byte at `sp`, and `sp` is incremented (rule R127). -/
def execRet (s : State) : Result :=
  commit s do
    let sp' ← spIncrement s.sp
    pure ((s.setSp sp').setPc (s.readMem s.sp))

/-- A conditional jump on a condition of the flags: to `x[reg]` where it holds, else past the 2-byte
instruction. It touches neither the stack pointer nor memory (rules R128, R129; C5, entry 25). The operand is
checked taken or not, the fall-through address only where not taken. -/
def jumpIf (cond : Byte → Bool) (reg : Byte) (s : State) : Result :=
  commit s do
    let r ← regOperand reg
    if cond s.fl then
      pure (s.setPc (s.readReg r))
    else
      let pc' ← nextPc s 2
      pure (s.setPc pc')

/-- JEQ reg: jump where E is set (rule R128). -/
def execJeq (reg : Byte) (s : State) : Result := jumpIf (fun fl => flagE fl) reg s

/-- JNE reg: jump where E is not set (rule R129). -/
def execJne (reg : Byte) (s : State) : Result := jumpIf (fun fl => !flagE fl) reg s

/-- JMP reg: `pc <- x[reg]` (rule R130). -/
def execJmp (reg : Byte) (s : State) : Result :=
  commit s do
    let r ← regOperand reg
    pure (s.setPc (s.readReg r))

end Sys2Proof.Machine
end

