-- ==== Sys2Proof/Machine/LoadImmediate.lean ====
section
/-! DEFINITION. LDI (42_load_immediate.md). -/

namespace Sys2Proof.Machine

/-- LDI reg,val: `x[reg] <- val`, the whole operand byte, unsigned (rules R64, R100). -/
def execLdi (reg val : Byte) (s : State) : Result :=
  commit s do
    let r ← regOperand reg
    let pc' ← nextPc s 3
    pure ((s.setReg r val).setPc pc')

end Sys2Proof.Machine
end

