-- ==== Sys2Proof/Machine/System.lean ====
section
/-! DEFINITION. HALT and PRN (41_system_io.md). -/

namespace Sys2Proof.Machine

/-- HALT: `run` becomes HALTED; nothing else changes, at any address (rule R95). UNVERIFIED: that `pc` stays is
the spec's decision D13 (entry 13). -/
def execHalt (s : State) : Result := .next (s.setRun .halted)

/-- PRN reg: append `x[reg]` to the output trace (rule R96). -/
def execPrn (reg : Byte) (s : State) : Result :=
  commit s do
    let r ← regOperand reg
    let pc' ← nextPc s 2
    pure ((s.output (s.readReg r)).setPc pc')

end Sys2Proof.Machine
end

