-- ==== Sys2Proof/Syntax.lean ====
section
/-! DEFINITION. The instructions: one constructor for each of the thirteen rows of the opcode map
(30_encoding.md rule R66). -/

namespace Sys2Proof

/-- An instruction with its operand bytes as they stand in memory, named as the opcode map names them.

A register operand is kept as the whole operand byte (rule R63), so that "a valid opcode with an invalid
operand" (rule R69) is an instruction; `Instr.wf` says when its register operands name registers, and check 3
of the step (rule R85) is made by the instruction's meaning. -/
inductive Instr where
  /-- `HALT` (rule R95). -/
  | halt
  /-- `PRN reg` (rule R96). -/
  | prn (reg : Byte)
  /-- `LDI reg,val` (rule R100). -/
  | ldi (reg val : Byte)
  /-- `ADD regA,regB` (rule R106). -/
  | add (regA regB : Byte)
  /-- `MUL regA,regB` (rule R107). -/
  | mul (regA regB : Byte)
  /-- `PUSH reg` (rule R116). -/
  | push (reg : Byte)
  /-- `POP reg` (rule R117). -/
  | pop (reg : Byte)
  /-- `CALL reg` (rule R126). -/
  | call (reg : Byte)
  /-- `RET` (rule R127). -/
  | ret
  /-- `CMP regA,regB` (rule R108). -/
  | cmp (regA regB : Byte)
  /-- `JEQ reg` (rule R128). -/
  | jeq (reg : Byte)
  /-- `JNE reg` (rule R129). -/
  | jne (reg : Byte)
  /-- `JMP reg` (rule R130). -/
  | jmp (reg : Byte)
  deriving DecidableEq, Repr

end Sys2Proof
end

