-- ==== Sys2Proof/WellFormed.lean ====
section
/-! DEFINITION. When an instruction's operands are legal: every register operand byte names a register
(30_encoding.md rules R63, R69). -/

namespace Sys2Proof

/-- The register operand bytes of an instruction in the order the step checks them, `opa` before `opb`
(40_execution_cycle.md rule R85). The immediate of LDI is not one of them. -/
def Instr.regOperands : Instr → List Byte
  | .halt => []
  | .prn reg => [reg]
  | .ldi reg _ => [reg]
  | .add regA regB => [regA, regB]
  | .mul regA regB => [regA, regB]
  | .push reg => [reg]
  | .pop reg => [reg]
  | .call reg => [reg]
  | .ret => []
  | .cmp regA regB => [regA, regB]
  | .jeq reg => [reg]
  | .jne reg => [reg]
  | .jmp reg => [reg]

/-- Every register operand byte is in 0 to 7 (rule R63); any immediate is legal (rule R64). -/
def Instr.wf (i : Instr) : Bool :=
  i.regOperands.all fun b => b.toNat ≤ 7

end Sys2Proof
end

