-- ==== Sys2Proof/Decode.lean ====
section
/-! DEFINITION. The opcode map, the decoder and the encoder (30_encoding.md rules R60 to R69). -/

namespace Sys2Proof

/-- The four instruction formats (rule R60). -/
inductive Format where
  /-- No operand, 1 byte. -/
  | z
  /-- One register operand, 2 bytes. -/
  | r
  /-- Two register operands, 3 bytes. -/
  | rr
  /-- A register and an immediate operand, 3 bytes. -/
  | ri
  deriving DecidableEq, Repr

/-- The thirteen operations of the opcode map (rule R66). -/
inductive Opcode where
  | halt | prn | ldi | add | mul | push | pop | call | ret | cmp | jeq | jne | jmp
  deriving DecidableEq, Repr

/-- The length in bytes of an instruction of a format (rule R60). -/
def Format.length : Format → Nat
  | .z => 1
  | .r => 2
  | .rr => 3
  | .ri => 3

/-- The opcode byte, in binary as the source's table gives it (rule R66). -/
def Opcode.byte : Opcode → Byte
  | .halt => 0b00000001
  | .prn => 0b01000111
  | .ldi => 0b10000010
  | .add => 0b10100000
  | .mul => 0b10100010
  | .push => 0b01000101
  | .pop => 0b01000110
  | .call => 0b01010000
  | .ret => 0b00010001
  | .cmp => 0b10100111
  | .jeq => 0b01010101
  | .jne => 0b01010110
  | .jmp => 0b01010100

/-- The format column of the opcode map (rule R66). -/
def Opcode.format : Opcode → Format
  | .halt => .z
  | .prn => .r
  | .ldi => .ri
  | .add => .rr
  | .mul => .rr
  | .push => .r
  | .pop => .r
  | .call => .r
  | .ret => .z
  | .cmp => .rr
  | .jeq => .r
  | .jne => .r
  | .jmp => .r

/-- The bytes column of the opcode map: the length is a function of the opcode alone (rule R61). -/
def Opcode.length (o : Opcode) : Nat := o.format.length

/-- The rows of the opcode map in the source's order (rule R66). -/
def opcodeMap : List Opcode :=
  [.halt, .prn, .ldi, .add, .mul, .push, .pop, .call, .ret, .cmp, .jeq, .jne, .jmp]

/-- The opcode a byte selects, by exact value of all eight bits (rule R67); none where it is not one of the
thirteen (rule R68). -/
def Opcode.ofByte? (b : Byte) : Option Opcode :=
  opcodeMap.find? fun o => o.byte == b

/-- Why bytes are not an instruction. -/
inductive DecodeError where
  /-- The first byte is not one of the thirteen opcodes (rule R68). -/
  | invalidOpcode (byte : Byte)
  /-- The bytes end before the instruction does. -/
  | truncated
  deriving DecidableEq, Repr

/-- What decoding a list of bytes answers: the instruction and the bytes after it, or why there is none. -/
abbrev Decoded := Except DecodeError (Instr × List Byte)

/-- Format Z: no operand byte is taken. -/
def takeZ (i : Instr) (bs : List Byte) : Decoded := .ok (i, bs)

/-- Format R: `opa` is the byte after the opcode (rule R62). -/
def takeR (mk : Byte → Instr) : List Byte → Decoded
  | opa :: rest => .ok (mk opa, rest)
  | [] => .error .truncated

/-- Formats RR and RI: `opa`, then `opb` (rule R62). -/
def takeRR (mk : Byte → Byte → Instr) : List Byte → Decoded
  | opa :: opb :: rest => .ok (mk opa opb, rest)
  | [_] => .error .truncated
  | [] => .error .truncated

/-- Takes the operand bytes of an opcode's instruction: the first operand of the mnemonic is `opa`, the second
is `opb` (rule R62). -/
def decodeOperands : Opcode → List Byte → Decoded
  | .halt => takeZ .halt
  | .prn => takeR .prn
  | .ldi => takeRR .ldi
  | .add => takeRR .add
  | .mul => takeRR .mul
  | .push => takeR .push
  | .pop => takeR .pop
  | .call => takeR .call
  | .ret => takeZ .ret
  | .cmp => takeRR .cmp
  | .jeq => takeR .jeq
  | .jne => takeR .jne
  | .jmp => takeR .jmp

/-- Reads one instruction from the bytes at rising addresses, and answers it with the bytes that follow it
(rules R60 to R62, R67). For an invalid opcode no operand byte is looked at (rule R61). -/
def decode : List Byte → Decoded
  | [] => .error .truncated
  | op :: rest =>
    match Opcode.ofByte? op with
    | none => .error (.invalidOpcode op)
    | some o => decodeOperands o rest

/-- The opcode of an instruction. -/
def Instr.opcode : Instr → Opcode
  | .halt => .halt
  | .prn _ => .prn
  | .ldi _ _ => .ldi
  | .add _ _ => .add
  | .mul _ _ => .mul
  | .push _ => .push
  | .pop _ => .pop
  | .call _ => .call
  | .ret => .ret
  | .cmp _ _ => .cmp
  | .jeq _ => .jeq
  | .jne _ => .jne
  | .jmp _ => .jmp

/-- The operand bytes of an instruction in address order, `opa` then `opb` (rule R62). -/
def Instr.operandBytes : Instr → List Byte
  | .halt => []
  | .prn reg => [reg]
  | .ldi reg val => [reg, val]
  | .add regA regB => [regA, regB]
  | .mul regA regB => [regA, regB]
  | .push reg => [reg]
  | .pop reg => [reg]
  | .call reg => [reg]
  | .ret => []
  | .cmp regA regB => [regA, regB]
  | .jeq reg => [reg]
  | .jne reg => [reg]
  | .jmp reg => [reg]

/-- The length of an instruction in bytes (rule R61). -/
def Instr.length (i : Instr) : Nat := i.opcode.length

/-- The bytes of an instruction at rising addresses: the opcode byte, then its operand bytes (rules R42, R60). -/
def encode (i : Instr) : List Byte := i.opcode.byte :: i.operandBytes

/-- The bytes of a word numbered as spec/opcode_table.json numbers it, first byte in the low bits; the bits
from `nbits` up are 0. Three bytes, the longest instruction (rule R60). -/
def tableBytes (nbits w : Nat) : List Byte :=
  let v := w % 2 ^ nbits
  [BitVec.ofNat 8 v, BitVec.ofNat 8 (v / 2 ^ 8), BitVec.ofNat 8 (v / 2 ^ 16)]

/-- The instruction the decoder reads from a word of the opcode table; none where it refuses. -/
def decodeTableWord (nbits w : Nat) : Option Instr :=
  match decode (tableBytes nbits w) with
  | .ok (i, _) => some i
  | .error _ => none

end Sys2Proof
end

