-- ==== Sys2Proof/Machine/Fetch.lean ====
section
/-! DEFINITION. Fetching and decoding the instruction at `pc`, with checks 1 and 2 of the step
(40_execution_cycle.md rules R81 to R84). -/

namespace Sys2Proof.Machine

/-- The bytes from address `a` up, at most `n` of them and none above address 255. -/
def bytesFrom (s : State) (a : Nat) : Nat → List Byte
  | 0 => []
  | n + 1 => if a ≤ 255 then Memory.get s.mem a :: bytesFrom s (a + 1) n else []

/-- The bytes an instruction at `pc` can occupy: three at most (rule R60), none above 255 (rule R46). Reading
a cell has no side effect (20_memory.md rule R44), so reading one the instruction does not have changes nothing. -/
def fetchWindow (s : State) : List Byte := bytesFrom s s.pc.toNat 3

/-- Fetch and decode: InvalidOpcode(byte, pc) where the byte at `pc` is no opcode (check 1, rule R83), else
AddressError(OPERAND, 256) where an operand byte would lie above 255 (check 2, rule R84), else the instruction.
UNVERIFIED: that operand addresses fault and do not wrap is the spec's decision D11 (entry 11), safe. -/
def fetch (s : State) : Except FatalError Instr :=
  match decode (fetchWindow s) with
  | .ok (i, _) => .ok i
  | .error (.invalidOpcode byte) => .error (.invalidOpcode byte s.pc)
  | .error .truncated => .error (.addressError .operand 256)

end Sys2Proof.Machine
end

