-- ==== Sys2Proof/Machine/Step.lean ====
section
/-! DEFINITION. One step of the core (40_execution_cycle.md rules R80, R90). -/

namespace Sys2Proof.Machine

/-- One step: enabled exactly when `run` is RUNNING (rule R80); fetch and decode with checks 1 and 2, then the
instruction with checks 3 to 5 (rule R83). In HALTED and FAULTED no step exists (rule R29, entry 2). -/
def step (s : State) : Host.Outcome State Fault Refusal :=
  match s.run with
  | .running =>
    match fetch s with
    | .ok i => exec i s
    | .error e => raise e s
  | .halted => .fault .afterHalt
  | .faulted e => .fault (.afterFatalError e)

/-- `s` with an instruction's bytes stored at `pc`, where `step` fetches them; it stands for the host's load
(70_reset_and_hazards.md rule R175, entry 23). A byte that would lie above address 255 has no cell and is not stored. -/
def State.withFetchWord (s : State) (nbits w : Nat) : State :=
  { s with mem := Memory.setFrom s.pc.toNat (tableBytes nbits w) s.mem }

end Sys2Proof.Machine
end

