-- ==== Sys2Proof/Machine/Loader.lean ====
section
/-! DEFINITION. The host loader: from a program file to the state at the first step (70_reset_and_hazards.md
rules R171, R175 to R179). It is host software, not part of the step (00_scope.md rule R5); it is here because the
spec gives its contract and a run starts from its result. -/

namespace Sys2Proof.Machine

/-- A line of the program file, as its characters. A file is the list of its lines: line terminators and the
character encoding are outside the core (91_not_in_source.md N23). -/
abbrev Line := List Char

/-- Why a load fails; no instruction executes then (rules R147, R171). -/
inductive LoadFailure where
  /-- The file cannot be opened (rule R177). -/
  | loadError
  /-- A malformed 8-character field (rule R178). -/
  | parseError
  /-- A byte would be written at this address, above 255 (rule R179). -/
  | addressError (value : Nat)
  deriving DecidableEq, Repr

/-- A line is an instruction line where its first character is 0 or 1; any other is skipped (rule R176). -/
def isByteLine : Line → Bool
  | c :: _ => c == '0' || c == '1'
  | [] => false

/-- The value of a binary digit (rule R178). -/
def binaryDigit? (c : Char) : Option Nat :=
  if c = '0' then some 0 else if c = '1' then some 1 else none

/-- The value of `n` binary digits at the front of a line, most significant first, onto the value `acc` of the
digits before them; none where a character is no binary digit or the line is too short (rules R176, R178, D24).
What follows the digits is ignored. -/
def binaryValue? : Nat → Nat → Line → Option Nat
  | 0, acc, _ => some acc
  | _ + 1, _, [] => none
  | n + 1, acc, c :: cs =>
    match binaryDigit? c with
    | some d => binaryValue? n (2 * acc + d) cs
    | none => none

/-- The byte of an instruction line: its first 8 characters as a base-2 number (rule R176); none where they are
malformed (rule R178). -/
def parseByte? (l : Line) : Option Byte := (binaryValue? 8 0 l).map (BitVec.ofNat 8)

/-- The bytes of the instruction lines, in file order, the first to be placed at address `a` (rules R72, R176).
DESIGN CHOICE: the lines are taken in order and the first failure is the one reported (entry 19). -/
def parseLines (a : Nat) : List Line → Except LoadFailure (List Byte)
  | [] => .ok []
  | l :: ls =>
    if isByteLine l then
      match parseByte? l with
      | none => .error .parseError
      | some b =>
        if a > 255 then .error (.addressError a)
        else (parseLines (a + 1) ls).map (b :: ·)
    else parseLines a ls

/-- The launch state of an image: the reset state with the image at address 0 and up; an image of more than
256 bytes does not load (rules R171, R175, R179, D23). -/
def loadImage (image : List Byte) : Except LoadFailure State :=
  if image.length > 256 then .error (.addressError 256)
  else .ok { State.reset with mem := Memory.setFrom 0 image State.reset.mem }

/-- The launch state of a program file, `none` standing for a file that cannot be opened (rules R176 to R179). -/
def launch : Option (List Line) → Except LoadFailure State
  | none => .error .loadError
  | some ls =>
    match parseLines 0 ls with
    | .ok image => loadImage image
    | .error f => .error f

end Sys2Proof.Machine
end

