-- ==== Sys2Proof/Machine/Report.lean ====
section
/-! DEFINITION. What the host reports of a run: the rendered output trace (10_state.md rule R31, 41_system_io.md
rule R96) and the exit status (60_exceptions.md rule R143). -/

namespace Sys2Proof.Machine

/-- The exit status of a fatal error (rule R143). UNVERIFIED: 4 and 5 are the spec's decision D17 (entry 16). -/
def FatalError.exitStatus : FatalError → Nat
  | .invalidOpcode _ _ => 1
  | .addressError _ _ => config.exitAddress
  | .registerIndexError _ => config.exitRegister

/-- The exit status of a run state; none while the core runs (rules R143, R184). -/
def RunState.exitStatus : RunState → Option Nat
  | .running => none
  | .halted => some 0
  | .faulted e => some e.exitStatus

/-- The exit status of a load that fails (rules R143, R177 to R179). UNVERIFIED: 3 is the spec's decision D16.
DESIGN CHOICE: the loader's AddressError reports the status of AddressError (entry 16). -/
def LoadFailure.exitStatus : LoadFailure → Nat
  | .loadError => 2
  | .parseError => config.exitParse
  | .addressError _ => config.exitAddress

/-- The decimal digit of a number below 10. -/
def digitChar (n : Nat) : Char := Char.ofNat (48 + n)

/-- The decimal numeral of a value, without sign, leading zeros or padding (rules R31, R96). -/
def decimalNumeral (v : Byte) : List Char :=
  let n := v.toNat
  if n < 10 then [digitChar n]
  else if n < 100 then [digitChar (n / 10), digitChar (n % 10)]
  else [digitChar (n / 100), digitChar (n / 10 % 10), digitChar (n % 10)]

/-- The output trace as the host prints it: each value's decimal numeral and one newline, oldest first
(rules R31, R96). -/
def renderOutput : List Byte → List Char
  | [] => []
  | v :: vs => decimalNumeral v ++ '\n' :: renderOutput vs

end Sys2Proof.Machine
end

