-- ==== Sys2Proof/Safety.lean ====
section
/-! DEFINITION. The terms claims are stated in: the invariant of the machine, what two states have in common,
and which check of the step fails (40_execution_cycle.md rules R83 to R87), written from the rules' own tables in
plain arithmetic and not from the step. -/

namespace Sys2Proof.Machine

/-- The values the flags register ever holds: none before the first CMP, then exactly one flag
(10_state.md rule R28). -/
def flagsLegal (fl : Byte) : Bool := fl == 0x00 || fl == 0x01 || fl == 0x02 || fl == 0x04

/-- What every step keeps: the memory is in its canonical form, and the flags register holds one of its four
values (10_state.md rule R28). -/
structure Inv (s : State) : Prop where
  memory : s.mem.wf = true
  flags : flagsLegal s.fl = true

/-- Every byte of memory reads the same in both states. -/
def SameMemory (s t : State) : Prop := ∀ a : Byte, t.readMem a = s.readMem a

/-- Every byte of memory but the one at `a` reads the same in both states. -/
def SameMemoryBut (a : Byte) (s t : State) : Prop := ∀ c : Byte, c ≠ a → t.readMem c = s.readMem c

/-- Every general register whose number is not in `ns` reads the same in both states. -/
def SameRegsBut (ns : List Nat) (s t : State) : Prop := ∀ r : Reg, r.val ∉ ns → t.readReg r = s.readReg r

/-- The program counter is `len` further on. -/
def AdvancedBy (len : Nat) (s t : State) : Prop := t.pc.toNat = s.pc.toNat + len

/-- `t` is `s` with the fatal error `e` recorded and nothing else changed (60_exceptions.md rule R150). -/
def FaultedWith (e : FatalError) (s t : State) : Prop := t = { s with run := .faulted e }

/-! ## The checks of the step, from the tables of 40_execution_cycle.md and 60_exceptions.md -/

/-- The bytes column of the opcode map (30_encoding.md rule R66). -/
def lengthOfOpcode (op : Byte) : Option Nat :=
  if op ∈ [0x01, 0x11] then some 1
  else if op ∈ [0x45, 0x46, 0x47, 0x50, 0x54, 0x55, 0x56] then some 2
  else if op ∈ [0x82, 0xA0, 0xA2, 0xA7] then some 3
  else none

/-- The instructions that set `pc <- pc + len` when they complete: PRN, LDI, ADD, MUL, CMP, PUSH, POP always,
JEQ where bit 0 of `fl` is 0, JNE where it is 1 (rule R87). -/
def fallsThrough (op fl : Byte) : Bool :=
  op ∈ [0x47, 0x82, 0xA0, 0xA2, 0xA7, 0x45, 0x46] || (op == 0x55 && fl.toNat % 2 == 0) || (op == 0x56 && fl.toNat % 2 == 1)

/-- Check 2: every operand byte address is at most 255 (rule R84). -/
def operandCheck (s : State) (len : Nat) : Option FatalError :=
  if s.pc.toNat + len - 1 > 255 then some (.addressError .operand 256) else none

/-- Check 3: every register operand byte is at most 7, `opa` before `opb`; `opb` is a register operand in ADD, MUL
and CMP alone (rule R85). -/
def registerCheck (op opa opb : Byte) (len : Nat) : Option FatalError :=
  if len ≥ 2 ∧ opa.toNat > 7 then some (.registerIndexError opa)
  else if op ∈ [0xA0, 0xA2, 0xA7] ∧ opb.toNat > 7 then some (.registerIndexError opb)
  else none

/-- Check 4: PUSH and CALL at `sp = 0`; RET at `sp = 255`; POP where the value it would increment is 255, the loaded
byte where its destination is the stack pointer, else `sp` (rule R86). -/
def stackCheck (s : State) (op opa : Byte) : Option FatalError :=
  if op ∈ [0x45, 0x50] ∧ s.sp = 0 then some (.addressError .stack (-1))
  else if op = 0x11 ∧ s.sp = 255 then some (.addressError .stack 256)
  else if op = 0x46 ∧ (if opa.toNat = config.spIndex.val then s.readMem s.sp else s.sp) = 255 then
    some (.addressError .stack 256)
  else none

/-- Check 5: CALL's return address, or the address of an instruction that falls through to it, is at most 255
(rule R87). -/
def followingCheck (s : State) (op : Byte) (len : Nat) : Option FatalError :=
  if op = 0x50 ∧ s.pc.toNat + 2 > 255 then some (.addressError .returnAddress 256)
  else if fallsThrough op s.fl ∧ s.pc.toNat + len > 255 then some (.addressError .nextPc 256)
  else none

/-- The error of the first check that fails in a step from `s`, none where all five pass (rule R83). -/
def failedCheck (s : State) : Option FatalError :=
  let op := s.readMem s.pc
  let opa := s.readMem (s.pc + 1)
  let opb := s.readMem (s.pc + 2)
  match lengthOfOpcode op with
  | none => some (.invalidOpcode op s.pc)
  | some len =>
    (operandCheck s len).or <| (registerCheck op opa opb len).or <| (stackCheck s op opa).or <| followingCheck s op len

/-- A run has stayed safe while no fatal error has been recorded (10_state.md rule R29). -/
def State.isSafe (s : State) : Bool :=
  match s.run with
  | .running => true
  | .halted => true
  | .faulted _ => false

end Sys2Proof.Machine
end

