-- ==== Sys2Proof/Certificates/Slice0/Obligations.lean ====
section
/-! DEFINITION. The statements for the provers. A register operand byte `b` names the register `r` where
`b.toNat = r.val` (30_encoding.md rule R63). The stack pointer is `config.spIndex` throughout: no statement rests on
its being 7. Where a clause rests on a decision the spec marks as its own, the docstring names it. -/

open Sys2Proof Sys2Proof.Machine

/-! ## Encoding -/

/-- Rules R60 to R62, R66, R67. Decoding and encoding agree in both directions, for every instruction (the ill-formed
ones too, rule R69) and whatever bytes follow: bytes decode to an instruction exactly where they begin with its
encoding, so that no operand bit is dropped and no two byte strings of an instruction's length decode alike. -/
def Obligations.BytesDecodeToAnInstructionExactlyWhenTheyAreItsEncoding : Prop :=
  ∀ (bs : List Byte) (i : Instr) (rest : List Byte), decode bs = .ok (i, rest) ↔ bs = encode i ++ rest

/-- Rule R62 on the thirteen rows of rule R66, the opcodes in the source's binary: the byte after the opcode is the
first operand of the mnemonic, the byte after that the second. -/
def Obligations.TheThirteenRowsOfTheOpcodeMapDecode : Prop :=
  ∀ (a b : Byte) (rest : List Byte),
    decode (0b00000001 :: rest) = .ok (.halt, rest) ∧
    decode (0b01000111 :: a :: rest) = .ok (.prn a, rest) ∧
    decode (0b10000010 :: a :: b :: rest) = .ok (.ldi a b, rest) ∧
    decode (0b10100000 :: a :: b :: rest) = .ok (.add a b, rest) ∧
    decode (0b10100010 :: a :: b :: rest) = .ok (.mul a b, rest) ∧
    decode (0b01000101 :: a :: rest) = .ok (.push a, rest) ∧
    decode (0b01000110 :: a :: rest) = .ok (.pop a, rest) ∧
    decode (0b01010000 :: a :: rest) = .ok (.call a, rest) ∧
    decode (0b00010001 :: rest) = .ok (.ret, rest) ∧
    decode (0b10100111 :: a :: b :: rest) = .ok (.cmp a b, rest) ∧
    decode (0b01010101 :: a :: rest) = .ok (.jeq a, rest) ∧
    decode (0b01010110 :: a :: rest) = .ok (.jne a, rest) ∧
    decode (0b01010100 :: a :: rest) = .ok (.jmp a, rest)

/-- Rule R67. All eight bits of the opcode byte are compared: two bytes that begin instructions of one opcode are
equal. -/
def Obligations.OpcodesAreSelectedByExactValue : Prop :=
  ∀ (op₁ op₂ : Byte) (bs₁ bs₂ : List Byte) (i₁ i₂ : Instr) (rest₁ rest₂ : List Byte),
    decode (op₁ :: bs₁) = .ok (i₁, rest₁) → decode (op₂ :: bs₂) = .ok (i₂, rest₂) →
    (i₁.opcode = i₂.opcode ↔ op₁ = op₂)

/-- Rules R68, R143, R144. A byte that is none of the thirteen is refused by the decoder, whatever follows it, and a
step that fetches it records InvalidOpcode with the byte and the `pc`, changes nothing else, and ends the process with
status 1. It never executes as a no-op or as another instruction. That the record holds the byte and the `pc` is the
spec's decision D21 (rule R30, entry 18). -/
def Obligations.EveryOtherOpcodeByteIsAnInvalidOpcode : Prop :=
  ∀ op : Byte,
    op ∉ ([0x01, 0x47, 0x82, 0xA0, 0xA2, 0x45, 0x46, 0x50, 0x11, 0xA7, 0x55, 0x56, 0x54] : List Byte) →
    (∀ rest : List Byte, decode (op :: rest) = .error (.invalidOpcode op)) ∧
    ∀ s : State, s.run = .running → s.readMem s.pc = op →
      ∃ t, step s = .next t ∧ FaultedWith (.invalidOpcode op s.pc) s t ∧ t.run.exitStatus = some 1

/-! ## Reset, loading, reporting -/

/-- Rules R33, R34, R171. The state at the first step with nothing loaded. Its zeros are the spec's decisions D2
(registers, entry 4), D3 (memory, entry 5), D4 and D5 (pc and flags, entry 6). -/
def Obligations.ResetStateIsAllZeroAndRunning : Prop :=
  (∀ r : Reg, State.reset.readReg r = 0) ∧ (∀ a : Byte, State.reset.readMem a = 0) ∧ State.reset.pc = 0 ∧
    State.reset.fl = 0 ∧ State.reset.run = .running ∧ State.reset.out = []

/-- Rule R28 and the memory's canonical form (entry 24): the invariant holds right after reset. -/
def Obligations.ResetStateMeetsTheInvariant : Prop := Inv State.reset

/-- Rules R45, R171, R175, R179. An image of at most 256 bytes becomes `mem[0]` and up, every other cell reads the
reset value 0 (D3, entry 5), and the rest of the state is the reset state's; a longer image does not load (D23,
entry 19). -/
def Obligations.AnImageLoadsFromAddressZero : Prop :=
  ∀ image : List Byte,
    (image.length ≤ 256 → ∃ s, loadImage image = .ok s ∧ Inv s ∧ s = { State.reset with mem := s.mem } ∧
      ∀ a : Byte, s.readMem a = image.getD a.toNat 0) ∧
    (image.length > 256 → loadImage image = .error (.addressError 256))

/-- Rule R176. A line whose first character is not 0 or 1 is skipped and consumes no address; a line that begins
with eight binary digits, whatever follows them, gives the byte whose bit 7 is the first digit; the launch state has
the k-th such byte at address k. -/
def Obligations.AProgramFileGivesOneByteForEachBinaryLine : Prop :=
  (∀ a : Nat, parseLines a [] = .ok []) ∧
  (∀ (a : Nat) (l : Line) (ls : List Line), l.head? ≠ some '0' → l.head? ≠ some '1' →
    parseLines a (l :: ls) = parseLines a ls) ∧
  (∀ (a : Nat) (bits : List Bool) (tail : Line) (ls : List Line), a ≤ 255 → bits.length = 8 →
    ∃ b : Byte, (∀ k, k < 8 → b.getLsbD (7 - k) = bits.getD k false) ∧
      parseLines a ((bits.map (fun d => if d then '1' else '0') ++ tail) :: ls) =
        (parseLines (a + 1) ls).map (b :: ·)) ∧
  (∀ (ls : List Line) (image : List Byte), parseLines 0 ls = .ok image →
    ∃ s, launch (some ls) = .ok s ∧ ∀ k b, image[k]? = some b → s.readMem (BitVec.ofNat 8 k) = b)

/-- Rules R147, R177, R178 and R179. A file that cannot be opened, a line that begins with 0 or 1 but is malformed
in its first 8 characters or shorter (D24), and a 257th byte (D23) each end the load with the error named, and no
launch state exists. Which failure is reported first is the model's choice (entry 19). -/
def Obligations.MalformedProgramFilesDoNotLoad : Prop :=
  launch none = .error .loadError ∧
  (∀ (a : Nat) (l : Line) (ls : List Line), (l.head? = some '0' ∨ l.head? = some '1') →
    (l.length < 8 ∨ ∃ k c, k < 8 ∧ l[k]? = some c ∧ c ≠ '0' ∧ c ≠ '1') →
    parseLines a (l :: ls) = .error .parseError) ∧
  (∀ (a : Nat) (bits : List Bool) (tail : Line) (ls : List Line), a > 255 → bits.length = 8 →
    parseLines a ((bits.map (fun d => if d then '1' else '0') ++ tail) :: ls) = .error (.addressError a)) ∧
  (∀ (ls : List Line) (f : LoadFailure), parseLines 0 ls = .error f → launch (some ls) = .error f)

/-- Rule R143. The exit statuses. 3, 4 and 5 are the spec's decisions D16 and D17; that the loader's AddressError
reports 4 is the model's choice (entry 16). -/
def Obligations.ExitStatusesFollowTheTerminalCondition : Prop :=
  RunState.running.exitStatus = none ∧ RunState.halted.exitStatus = some 0 ∧
  (∀ b p : Byte, (RunState.faulted (.invalidOpcode b p)).exitStatus = some 1) ∧
  LoadFailure.loadError.exitStatus = 2 ∧ LoadFailure.parseError.exitStatus = 3 ∧
  (∀ (k : AddressKind) (v : Int), (RunState.faulted (.addressError k v)).exitStatus = some 4) ∧
  (∀ b : Byte, (RunState.faulted (.registerIndexError b)).exitStatus = some 5) ∧
  ∀ v : Nat, (LoadFailure.addressError v).exitStatus = 4

/-- Rules R31, R96. The host prints each value of the output trace as its decimal numeral without leading zeros (the
library's base-10 digits) and one newline, oldest first. That the trace holds values and the host renders them is the
spec's decision D8 (entry 8). -/
def Obligations.EachOutputValueIsRenderedAsADecimalNumeralAndANewline : Prop :=
  renderOutput [] = [] ∧
  (∀ (out : List Byte) (v : Byte), renderOutput (out ++ [v]) = renderOutput out ++ decimalNumeral v ++ ['\n']) ∧
  ∀ v : Byte, decimalNumeral v = Nat.toDigits 10 v.toNat

/-! ## The step -/

/-- Rules R80, R81, R90. While RUNNING, where the bytes at `pc` and up are the encoding of an instruction and none of
them lies above address 255, the step is the instruction's meaning in the same state: the step adds nothing around
it, and the meaning itself moves `pc`. -/
def Obligations.AStepExecutesTheInstructionAtThePc : Prop :=
  ∀ (s : State) (i : Instr), s.run = .running → s.pc.toNat + i.length ≤ 256 →
    (∀ k, k < i.length → s.readMem (s.pc + BitVec.ofNat 8 k) = (encode i).getD k 0) →
    step s = exec i s

/-- Rules R29, R80. A step exists exactly while RUNNING; in HALTED and FAULTED there is none, and the model's step
says so by a fault of its own (entry 2, the model's choice). -/
def Obligations.AStepExistsExactlyWhileRunning : Prop :=
  ∀ s : State, ((∃ t, step s = .next t) ↔ s.run = .running) ∧
    (s.run = .halted → step s = .fault .afterHalt) ∧
    ∀ e, s.run = .faulted e → step s = .fault (.afterFatalError e)

/-- Rules R83 to R88, R141, R149. While RUNNING, the first of the five checks that fails, as the rules' tables have it,
is the error the step records, with nothing else changed; where all pass the step completes without an error, and it
halts exactly where the opcode is HALT's. The checks and their order are the spec's decisions D9 to D12, D14, D15
(entries 9 to 12, 14, 15), the contents of the record D21 (entry 18). -/
def Obligations.TheFirstFailedCheckDecidesTheStep : Prop :=
  ∀ s : State, s.run = .running →
    (∀ e, failedCheck s = some e → ∃ t, step s = .next t ∧ FaultedWith e s t) ∧
    (failedCheck s = none → ∃ t, step s = .next t ∧ t.isSafe = true ∧ (t.run = .halted ↔ s.readMem s.pc = 0x01))

/-- Rules R88, R150, R151. A step that records a fatal error changes nothing else: memory, registers, `pc`, flags and
output keep the values they had when the step began, nothing is saved, control goes nowhere and the machine stops. That
no faulting instruction has a partial effect is the spec's decision D15 (entry 15); that the stopped machine's step
answers the fault `afterFatalError` is the model's own choice (entry 2). -/
def Obligations.AFatalErrorChangesOnlyTheRunStateAndStops : Prop :=
  ∀ (s t : State) (e : FatalError), step s = .next t → t.run = .faulted e →
    FaultedWith e s t ∧ step t = .fault (.afterFatalError e)

/-- Rule R28 and the memory's canonical form (entry 24): every step from a state that meets the invariant, reachable
or not, gives a state that meets it. -/
def Obligations.EveryStepKeepsTheInvariant : Prop :=
  ∀ s t : State, Inv s → step s = .next t → Inv t

/-- Rule R20, the column "written by", for an instruction that runs. Memory is written by PUSH and CALL alone; the
registers by LDI, ADD, MUL and POP, the stack pointer also by PUSH, CALL and RET; `pc` by every instruction that
completes except HALT; the flags by CMP alone; the run state by HALT and every fault; the output by PRN alone. -/
def Obligations.EachComponentIsWrittenOnlyByItsInstructions : Prop :=
  ∀ (i : Instr) (s t : State), s.run = .running → exec i s = .next t →
    (¬ SameMemory s t → ∃ b, i = .push b ∨ i = .call b) ∧
    (∀ r : Reg, t.readReg r ≠ s.readReg r →
      (∃ v b, i = .ldi b v ∨ i = .add b v ∨ i = .mul b v ∨ i = .pop b) ∨
      r = config.spIndex ∧ (i = .ret ∨ ∃ b, i = .push b ∨ i = .call b)) ∧
    (t.pc ≠ s.pc → i ≠ .halt ∧ t.run = .running) ∧
    (t.fl ≠ s.fl → ∃ a b, i = .cmp a b) ∧
    (t.run ≠ s.run → (i = .halt ∧ t.run = .halted) ∨ ∃ e, t.run = .faulted e) ∧
    (t.out ≠ s.out → ∃ b, i = .prn b)

/-- Rule R31. Along any run, from any state, the output trace only grows: nothing removes or changes an element of
it. -/
def Obligations.TheOutputTraceOnlyGrowsAlongARun : Prop :=
  ∀ (n : Nat) (s t : State), Sys2Proof.core.run n s = .next t → s.out <+: t.out

/-- Rule R41. What reaches memory. Fetch depends only on the cells at `pc`, `pc + 1` and `pc + 2`; PUSH and CALL read
no cell and write one (none where they fault), the same byte at the same address whatever the memory holds; POP and
RET write none and read only the cell at the stack pointer; no other instruction reads or writes memory. A meaning
that does not read a cell answers the same whatever the memory holds there. -/
def Obligations.OnlyFetchAndTheStackReachMemory : Prop :=
  ∀ (s : State) (m : Memory),
    ((∀ k : Nat, k ≤ 2 → s.pc.toNat + k ≤ 255 → m.get (s.pc.toNat + k) = s.mem.get (s.pc.toNat + k)) →
      fetch { s with mem := m } = fetch s) ∧
    (∀ (i : Instr) (t : State), (∀ b, i ≠ .push b ∧ i ≠ .call b ∧ i ≠ .pop b) → i ≠ .ret → exec i s = .next t →
      t.mem = s.mem ∧ exec i { s with mem := m } = .next { t with mem := m }) ∧
    (∀ (i : Instr) (t : State), (i = .ret ∨ ∃ b, i = .pop b) → m.get s.sp.toNat = s.mem.get s.sp.toNat →
      exec i s = .next t → t.mem = s.mem ∧ exec i { s with mem := m } = .next { t with mem := m }) ∧
    (∀ (i : Instr) (t : State), (∃ b, i = .push b ∨ i = .call b) → exec i s = .next t →
      (t.mem = s.mem ∧ exec i { s with mem := m } = .next { t with mem := m }) ∨
      ∃ v, t.mem = s.mem.set t.sp.toNat v ∧
        exec i { s with mem := m } = .next { t with mem := m.set t.sp.toNat v })

/-! ## What each instruction does -/

/-- Rule R95. HALT halts at every address and changes nothing else. That `pc` stays is the spec's decision D13
(entry 13). -/
def Obligations.HaltStopsAtEveryAddress : Prop :=
  ∀ s : State, exec .halt s = .next { s with run := .halted } ∧
    (s.run = .running → s.readMem s.pc = 0x01 → step s = .next { s with run := .halted })

/-- Rule R96. PRN appends the register's value to the output trace and advances by 2; nothing else changes. That the
trace holds the values is the spec's decision D8 (entry 8). -/
def Obligations.PrnAppendsTheRegisterToTheOutput : Prop :=
  ∀ (s : State) (b : Byte) (r : Reg), b.toNat = r.val → s.pc.toNat + 2 ≤ 255 →
    ∃ t, exec (.prn b) s = .next t ∧ t.out = s.out ++ [s.readReg r] ∧ AdvancedBy 2 s t ∧
      SameMemory s t ∧ SameRegsBut [] s t ∧ t.fl = s.fl ∧ t.run = s.run

/-- Rules R64, R100. LDI writes the whole immediate byte, whatever it is, to its register, the stack pointer too, and
advances by 3; nothing else changes. -/
def Obligations.LdiLoadsTheWholeImmediateByte : Prop :=
  ∀ (s : State) (b v : Byte) (r : Reg), b.toNat = r.val → s.pc.toNat + 3 ≤ 255 →
    ∃ t, exec (.ldi b v) s = .next t ∧ t.readReg r = v ∧ SameRegsBut [r.val] s t ∧ AdvancedBy 3 s t ∧
      SameMemory s t ∧ t.fl = s.fl ∧ t.out = s.out ∧ t.run = s.run

/-- Rule R109, with rules R106 and R107. ADD and MUL compute on integers and keep the result modulo 256 in the first
register, whatever the operands hold and also where both operands are one register; they raise nothing and set no
flag. -/
def Obligations.AddAndMulKeepTheResultModulo256 : Prop :=
  ∀ (s : State) (ba bb : Byte) (a b : Reg), ba.toNat = a.val → bb.toNat = b.val → s.pc.toNat + 3 ≤ 255 →
    (∃ t, exec (.add ba bb) s = .next t ∧
      (t.readReg a).toNat = ((s.readReg a).toNat + (s.readReg b).toNat) % 256 ∧
      SameRegsBut [a.val] s t ∧ AdvancedBy 3 s t ∧ SameMemory s t ∧ t.fl = s.fl ∧ t.out = s.out ∧ t.run = s.run) ∧
    (∃ t, exec (.mul ba bb) s = .next t ∧
      (t.readReg a).toNat = ((s.readReg a).toNat * (s.readReg b).toNat) % 256 ∧
      SameRegsBut [a.val] s t ∧ AdvancedBy 3 s t ∧ SameMemory s t ∧ t.fl = s.fl ∧ t.out = s.out ∧ t.run = s.run)

/-- Rules R28, R108. CMP sets exactly one flag, by the unsigned order of the two registers, and clears every other
bit of the flags register, whatever it held; no register is written. Unsigned is the spec's decision D28 (entry 21),
the zeros in bits 7:3 are D7 (entry 7). -/
def Obligations.CmpSetsExactlyTheFlagOfTheRelation : Prop :=
  ∀ (s : State) (ba bb : Byte) (a b : Reg), ba.toNat = a.val → bb.toNat = b.val → s.pc.toNat + 3 ≤ 255 →
    ∃ t, exec (.cmp ba bb) s = .next t ∧
      (t.fl.getLsbD 0 = true ↔ (s.readReg a).toNat = (s.readReg b).toNat) ∧
      (t.fl.getLsbD 1 = true ↔ (s.readReg a).toNat > (s.readReg b).toNat) ∧
      (t.fl.getLsbD 2 = true ↔ (s.readReg a).toNat < (s.readReg b).toNat) ∧
      (∀ k, k ≥ 3 → t.fl.getLsbD k = false) ∧
      SameRegsBut [] s t ∧ AdvancedBy 3 s t ∧ SameMemory s t ∧ t.out = s.out ∧ t.run = s.run

/-- Rules R115, R116. PUSH stores the register one cell below the stack pointer and leaves the stack pointer there;
every other cell and register keeps its value. A PUSH of the stack pointer stores the decremented value, the spec's
decision D18 (entry 17). -/
def Obligations.PushStoresTheRegisterBelowTheStackPointer : Prop :=
  ∀ (s : State) (b : Byte) (r : Reg), s.mem.wf = true → b.toNat = r.val → s.sp ≠ 0 → s.pc.toNat + 2 ≤ 255 →
    ∃ a t, spDecrement s.sp = .ok a ∧ s.sp.toNat = a.toNat + 1 ∧ exec (.push b) s = .next t ∧
      t.sp = a ∧ t.readMem a = (if r = config.spIndex then a else s.readReg r) ∧ SameMemoryBut a s t ∧
      SameRegsBut [config.spIndex.val] s t ∧ AdvancedBy 2 s t ∧ t.fl = s.fl ∧ t.out = s.out ∧ t.run = s.run

/-- Rules R115, R117. POP loads the register from the cell at the stack pointer and then increments the stack pointer;
memory keeps its value. A POP into the stack pointer increments the loaded byte, the spec's decision D19 (entry
17). -/
def Obligations.PopLoadsTheRegisterAndIncrementsTheStackPointer : Prop :=
  ∀ (s : State) (b : Byte) (r : Reg), b.toNat = r.val →
    (if r = config.spIndex then s.readMem s.sp else s.sp) ≠ 255 → s.pc.toNat + 2 ≤ 255 →
    ∃ t, exec (.pop b) s = .next t ∧
      (r ≠ config.spIndex → t.readReg r = s.readMem s.sp ∧ t.sp.toNat = s.sp.toNat + 1) ∧
      (r = config.spIndex → t.sp.toNat = (s.readMem s.sp).toNat + 1) ∧
      SameRegsBut [r.val, config.spIndex.val] s t ∧ AdvancedBy 2 s t ∧ SameMemory s t ∧
      t.fl = s.fl ∧ t.out = s.out ∧ t.run = s.run

/-- Rules R115, R126. CALL stores `pc + 2` one cell below the stack pointer, leaves the stack pointer there and jumps to
the register's value; every other cell and register keeps its value. A CALL of the stack pointer jumps to the
decremented value, the spec's decision D20 (entry 17). -/
def Obligations.CallPushesTheReturnAddressAndJumps : Prop :=
  ∀ (s : State) (b : Byte) (r : Reg), s.mem.wf = true → b.toNat = r.val → s.sp ≠ 0 → s.pc.toNat + 2 ≤ 255 →
    ∃ a t, spDecrement s.sp = .ok a ∧ s.sp.toNat = a.toNat + 1 ∧ exec (.call b) s = .next t ∧
      t.sp = a ∧ (t.readMem a).toNat = s.pc.toNat + 2 ∧ t.pc = (if r = config.spIndex then a else s.readReg r) ∧
      SameMemoryBut a s t ∧ SameRegsBut [config.spIndex.val] s t ∧ t.fl = s.fl ∧ t.out = s.out ∧ t.run = s.run

/-- Rules R115, R127. RET jumps to the byte at the stack pointer and increments the stack pointer, at any address; it
reads memory and does not change it. -/
def Obligations.RetPopsTheProgramCounter : Prop :=
  ∀ s : State, s.sp ≠ 255 → ∃ t, exec .ret s = .next t ∧ t.pc = s.readMem s.sp ∧ t.sp.toNat = s.sp.toNat + 1 ∧
    SameRegsBut [config.spIndex.val] s t ∧ SameMemory s t ∧ t.fl = s.fl ∧ t.out = s.out ∧ t.run = s.run

/-- Rules R125, R128, R129. JEQ jumps to the register's value exactly where bit 0 of the flags is set, JNE exactly where
it is not; the one not taken advances by 2. Only `pc` is written: no return address is pushed. A taken jump needs no
following address. -/
def Obligations.JeqAndJneJumpOnComplementaryConditions : Prop :=
  ∀ (s : State) (b : Byte) (r : Reg), b.toNat = r.val →
    (s.fl.getLsbD 0 = true →
      exec (.jeq b) s = .next { s with pc := s.readReg r } ∧
      (s.pc.toNat + 2 ≤ 255 → exec (.jne b) s = .next { s with pc := s.pc + 2 })) ∧
    (s.fl.getLsbD 0 = false →
      exec (.jne b) s = .next { s with pc := s.readReg r } ∧
      (s.pc.toNat + 2 ≤ 255 → exec (.jeq b) s = .next { s with pc := s.pc + 2 }))

/-- Rules R125, R130. JMP jumps to the register's value, whatever it is and from whatever address; only `pc` is
written. -/
def Obligations.JmpJumpsToTheRegister : Prop :=
  ∀ (s : State) (b : Byte) (r : Reg), b.toNat = r.val → exec (.jmp b) s = .next { s with pc := s.readReg r }

/-! ## Where an instruction raises a fatal error -/

/-- Rules R63, R85, R146. Every instruction whose first bad register operand byte is `b` records RegisterIndexError(b)
and does nothing else, whether or not it would use the register; that it does is the spec's decision D9 (entry 9), that
it has no partial effect D15 (entry 15), the contents of the record D21 (entry 18). -/
def Obligations.ABadRegisterOperandIsARegisterIndexError : Prop :=
  ∀ (i : Instr) (s : State) (b : Byte), i.regOperands.find? (fun c => decide (c.toNat > 7)) = some b →
    ∃ t, exec i s = .next t ∧ FaultedWith (.registerIndexError b) s t

/-- Rule R84. A step whose instruction has an operand byte above address 255 records AddressError(OPERAND, 256) and
does nothing else; that operand addresses do not wrap is the spec's decision D11 (entry 11), that it has no partial effect
D15 (entry 15), the contents of the record D21 (entry 18). -/
def Obligations.AnOperandByteAbove255IsAnAddressError : Prop :=
  ∀ (s : State) (len : Nat), s.run = .running → lengthOfOpcode (s.readMem s.pc) = some len → s.pc.toNat + len > 256 →
    ∃ t, step s = .next t ∧ FaultedWith (.addressError .operand 256) s t

/-- Rules R24, R86. PUSH and CALL at `sp = 0` record AddressError(STACK, -1); RET at `sp = 255`, and POP where the value
it would increment is 255, record AddressError(STACK, 256); nothing else changes, and this check comes before that of
the following address. That the stack pointer does not wrap is the spec's decision D10 (entry 10), which value POP
increments is D19 (entry 17), the order is D14 (entry 14), that there is no partial effect D15 (entry 15), the contents
of the record D21 (entry 18). -/
def Obligations.TheStackPointerDoesNotWrap : Prop :=
  ∀ (s : State) (b : Byte) (r : Reg), b.toNat = r.val →
    (s.sp = 0 → (∃ t, exec (.push b) s = .next t ∧ FaultedWith (.addressError .stack (-1)) s t) ∧
      ∃ t, exec (.call b) s = .next t ∧ FaultedWith (.addressError .stack (-1)) s t) ∧
    (s.sp = 255 → ∃ t, exec .ret s = .next t ∧ FaultedWith (.addressError .stack 256) s t) ∧
    (r ≠ config.spIndex → s.sp = 255 → ∃ t, exec (.pop b) s = .next t ∧ FaultedWith (.addressError .stack 256) s t) ∧
    (r = config.spIndex → s.readMem s.sp = 255 →
      ∃ t, exec (.pop b) s = .next t ∧ FaultedWith (.addressError .stack 256) s t)

/-- Rules R27, R87. An instruction that would fall through to an address above 255 records AddressError(NEXT_PC, 256),
and CALL whose return address would be above 255 AddressError(RETURN, 256), before any effect. That the instruction
itself raises it is the spec's decision D12 (entry 12), that it has no partial effect D15 (entry 15), the contents of the
record D21 (entry 18). -/
def Obligations.TheProgramCounterDoesNotWrap : Prop :=
  ∀ (s : State) (b c v : Byte) (r r' : Reg), b.toNat = r.val → c.toNat = r'.val →
    (s.pc.toNat + 2 > 255 →
      (∃ t, exec (.prn b) s = .next t ∧ FaultedWith (.addressError .nextPc 256) s t) ∧
      (s.fl.getLsbD 0 = false → ∃ t, exec (.jeq b) s = .next t ∧ FaultedWith (.addressError .nextPc 256) s t) ∧
      (s.fl.getLsbD 0 = true → ∃ t, exec (.jne b) s = .next t ∧ FaultedWith (.addressError .nextPc 256) s t) ∧
      (s.sp ≠ 0 → (∃ t, exec (.push b) s = .next t ∧ FaultedWith (.addressError .nextPc 256) s t) ∧
        ∃ t, exec (.call b) s = .next t ∧ FaultedWith (.addressError .returnAddress 256) s t) ∧
      ((if r = config.spIndex then s.readMem s.sp else s.sp) ≠ 255 →
        ∃ t, exec (.pop b) s = .next t ∧ FaultedWith (.addressError .nextPc 256) s t)) ∧
    (s.pc.toNat + 3 > 255 →
      (∃ t, exec (.ldi b v) s = .next t ∧ FaultedWith (.addressError .nextPc 256) s t) ∧
      (∃ t, exec (.add b c) s = .next t ∧ FaultedWith (.addressError .nextPc 256) s t) ∧
      (∃ t, exec (.mul b c) s = .next t ∧ FaultedWith (.addressError .nextPc 256) s t) ∧
      ∃ t, exec (.cmp b c) s = .next t ∧ FaultedWith (.addressError .nextPc 256) s t)

/-! ## Frames: what an instruction leaves unchanged, on every operand byte and from every state -/

/-- Rules R28, R100, R106, R107, R108. LDI, ADD and MUL change no register but the one their first operand names, CMP
changes none; LDI, ADD and MUL change no flag; none of the four changes a byte of memory or the output. -/
def Obligations.FrameOfTheRegisterForms : Prop :=
  ∀ (s t : State) (b c : Byte),
    (exec (.ldi b c) s = .next t ∨ exec (.add b c) s = .next t ∨ exec (.mul b c) s = .next t →
      SameRegsBut [b.toNat] s t ∧ t.fl = s.fl ∧ SameMemory s t ∧ t.out = s.out) ∧
    (exec (.cmp b c) s = .next t → SameRegsBut [] s t ∧ SameMemory s t ∧ t.out = s.out)

/-- Rules R95, R96, R128, R129, R130. HALT, PRN, JEQ, JNE and JMP change no register, no flag and no byte of memory; all
but PRN leave the output as it was, and PRN keeps what was there. -/
def Obligations.FrameOfTheSystemAndJumpForms : Prop :=
  ∀ (s t : State) (b : Byte),
    (exec .halt s = .next t ∨ exec (.prn b) s = .next t ∨ exec (.jeq b) s = .next t ∨ exec (.jne b) s = .next t ∨
        exec (.jmp b) s = .next t →
      SameRegsBut [] s t ∧ t.fl = s.fl ∧ SameMemory s t ∧ s.out <+: t.out) ∧
    (exec .halt s = .next t ∨ exec (.jeq b) s = .next t ∨ exec (.jne b) s = .next t ∨ exec (.jmp b) s = .next t →
      t.out = s.out)

/-- Rules R117, R127. POP changes no register but its destination and the stack pointer, RET none but the stack
pointer; neither changes a flag, a byte of memory or the output. -/
def Obligations.FrameOfTheStackReadingForms : Prop :=
  ∀ (s t : State) (b : Byte),
    (exec (.pop b) s = .next t → SameRegsBut [b.toNat, config.spIndex.val] s t) ∧
    (exec .ret s = .next t → SameRegsBut [config.spIndex.val] s t) ∧
    (exec (.pop b) s = .next t ∨ exec .ret s = .next t → t.fl = s.fl ∧ SameMemory s t ∧ t.out = s.out)

/-- Rules R116, R126. PUSH and CALL change no register but the stack pointer, no flag and not the output; where the
decremented stack pointer is the address stored to, every byte of memory outside it reads as before, and where there
is none (the decrement faults) every byte does. -/
def Obligations.FrameOfTheStackWritingForms : Prop :=
  ∀ (s t : State) (b : Byte), exec (.push b) s = .next t ∨ exec (.call b) s = .next t →
    SameRegsBut [config.spIndex.val] s t ∧ t.fl = s.fl ∧ t.out = s.out ∧
    (∀ a, spDecrement s.sp = .ok a → SameMemoryBut a s t) ∧
    (∀ e, spDecrement s.sp = .error e → SameMemory s t)

/-! ## Laws over more than one instruction -/

/-- Rule R118, derived in the spec. A PUSH and then a POP into another register that is not the stack pointer move the
pushed value there and restore the stack pointer; the cell keeps the value. -/
def Obligations.PushThenPopMovesTheValueAndRestoresTheStackPointer : Prop :=
  ∀ (s : State) (b₁ b₂ : Byte) (r₁ r₂ : Reg), s.mem.wf = true → b₁.toNat = r₁.val → b₂.toNat = r₂.val →
    r₁ ≠ config.spIndex → r₂ ≠ config.spIndex → s.sp ≠ 0 → s.pc.toNat + 4 ≤ 255 →
    ∃ t u, exec (.push b₁) s = .next t ∧ exec (.pop b₂) t = .next u ∧ u.readReg r₂ = s.readReg r₁ ∧ u.sp = s.sp ∧
      SameRegsBut [r₂.val] s u ∧ u.readMem (s.sp - 1) = s.readReg r₁ ∧ SameMemoryBut (s.sp - 1) s u ∧ AdvancedBy 4 s u

/-- Rule R131, derived in the spec. Where the called code leaves the stack pointer and the cell at it as CALL left them,
RET resumes at the instruction after the CALL with the stack pointer restored. -/
def Obligations.CallThenReturnResumesAfterTheCall : Prop :=
  ∀ (s : State) (b : Byte) (r : Reg), s.mem.wf = true → b.toNat = r.val → s.sp ≠ 0 → s.pc.toNat + 2 ≤ 255 →
    ∃ t, exec (.call b) s = .next t ∧
      ∀ u : State, u.sp = t.sp → u.readMem u.sp = t.readMem t.sp →
        ∃ v, exec .ret u = .next v ∧ AdvancedBy 2 s v ∧ v.sp = s.sp ∧ SameRegsBut [config.spIndex.val] u v

/-- Rule R53, derived in the spec (D26, entry 20). A PUSH, of any register, into the cell of the very next instruction
leaves there the byte the next step fetches, whatever byte it is: where it and the operand bytes that stood after it
are the encoding of an instruction, the next step is that instruction's meaning; where it is no opcode, the next step
records it; where its operands would lie above 255, the next step records that. The stack pointer pushes its
decremented value, the spec's decision D18 (entry 17); that such operands are an AddressError is D11 (entry 11), that a
fault has no partial effect D15 (entry 15), the contents of the records D21 (entry 18). -/
def Obligations.APushedByteIsFetchedByTheNextStep : Prop :=
  ∀ (s : State) (b : Byte) (r : Reg), s.mem.wf = true → s.run = .running → b.toNat = r.val →
    s.pc.toNat + 2 ≤ 255 → s.sp.toNat = s.pc.toNat + 3 →
    ∃ t, exec (.push b) s = .next t ∧ AdvancedBy 2 s t ∧
      t.readMem t.pc = (if r = config.spIndex then s.sp - 1 else s.readReg r) ∧
      (∀ i : Instr, (encode i).getD 0 0 = t.readMem t.pc → t.pc.toNat + i.length ≤ 256 →
        (∀ k, 1 ≤ k → k < i.length → s.readMem (t.pc + BitVec.ofNat 8 k) = (encode i).getD k 0) →
        step t = exec i t) ∧
      (lengthOfOpcode (t.readMem t.pc) = none →
        step t = .next { t with run := .faulted (.invalidOpcode (t.readMem t.pc) t.pc) }) ∧
      ∀ len, lengthOfOpcode (t.readMem t.pc) = some len → t.pc.toNat + len > 256 →
        step t = .next { t with run := .faulted (.addressError .operand 256) }

/-- Rules R108, R128, R129. After a CMP, JEQ goes to its register exactly where the compared registers were equal, and
JNE exactly where they were not; the one not taken falls through. -/
def Obligations.AJumpAfterACompareFollowsEquality : Prop :=
  ∀ (s t : State) (ba bb bc : Byte) (a b c : Reg), ba.toNat = a.val → bb.toNat = b.val → bc.toNat = c.val →
    s.pc.toNat + 5 ≤ 255 → exec (.cmp ba bb) s = .next t →
    (s.readReg a = s.readReg b →
      exec (.jeq bc) t = .next { t with pc := s.readReg c } ∧ exec (.jne bc) t = .next { t with pc := s.pc + 5 }) ∧
    (s.readReg a ≠ s.readReg b →
      exec (.jne bc) t = .next { t with pc := s.readReg c } ∧ exec (.jeq bc) t = .next { t with pc := s.pc + 5 })

/-- Rule R110, derived in the spec. Adding `b` and then `256 - b` restores a register: two ADDs from registers other
than the destination whose values sum to 256. -/
def Obligations.AddingAValueAndItsComplementRestoresTheRegister : Prop :=
  ∀ (s : State) (ba bb bc : Byte) (a b c : Reg), ba.toNat = a.val → bb.toNat = b.val → bc.toNat = c.val →
    b ≠ a → c ≠ a → (s.readReg b).toNat + (s.readReg c).toNat = 256 → s.pc.toNat + 6 ≤ 255 →
    ∃ t u, exec (.add ba bb) s = .next t ∧ exec (.add ba bc) t = .next u ∧ SameRegsBut [] s u ∧ AdvancedBy 6 s u

/-- Rules R91, R130. A JMP whose register holds its own address never ends: after any number of steps the state is the
one it started from. -/
def Obligations.AJumpToItselfRunsForever : Prop :=
  ∀ (s : State) (r : Reg) (n : Nat), s.run = .running → s.pc.toNat + 1 ≤ 255 → s.readMem s.pc = 0x54 →
    (s.readMem (s.pc + 1)).toNat = r.val → s.readReg r = s.pc → Sys2Proof.core.run n s = .next s
end

