-- ==== Sys2Proof/Laws/Decode.lean ====
section
/-! SUPPORT. The opcode map and the operand forms, each said once. -/

namespace Sys2Proof

/-- The byte of an opcode selects it. -/
@[simp] theorem ofByte?_byte (o : Opcode) : Opcode.ofByte? o.byte = some o := by
  cases o <;> rfl

/-- A byte selects an opcode exactly when it is that opcode's byte. -/
theorem ofByte?_eq_some {b : Byte} {o : Opcode} : Opcode.ofByte? b = some o ↔ b = o.byte := by
  constructor
  · intro h
    have hb : (o.byte == b) = true := List.find?_some (p := fun o : Opcode => o.byte == b) (l := opcodeMap) h
    exact (eq_of_beq hb).symm
  · rintro rfl
    exact ofByte?_byte o

/-- A byte selects no opcode exactly when it is no opcode's byte. -/
theorem ofByte?_eq_none {b : Byte} : Opcode.ofByte? b = none ↔ ∀ o : Opcode, b ≠ o.byte := by
  constructor
  · rintro h o rfl
    simp at h
  · intro h
    cases hb : Opcode.ofByte? b with
    | none => rfl
    | some o => exact absurd (ofByte?_eq_some.1 hb) (h o)

theorem takeR_eq_ok {mk : Byte → Instr} {bs : List Byte} {i : Instr} {rest : List Byte} :
    takeR mk bs = .ok (i, rest) ↔ ∃ a, bs = a :: rest ∧ i = mk a := by
  cases bs <;> simp [takeR, and_comm, eq_comm]

theorem takeRR_eq_ok {mk : Byte → Byte → Instr} {bs : List Byte} {i : Instr} {rest : List Byte} :
    takeRR mk bs = .ok (i, rest) ↔ ∃ a b, bs = a :: b :: rest ∧ i = mk a b := by
  match bs with
  | [] => simp [takeRR]
  | [_] => simp [takeRR]
  | a :: b :: r => simp [takeRR, and_comm, eq_comm]

theorem takeZ_eq_ok {j i : Instr} {bs rest : List Byte} : takeZ j bs = .ok (i, rest) ↔ bs = rest ∧ i = j := by
  simp [takeZ, and_comm, eq_comm]

/-- The operand bytes are in bits 7:6 of the opcode (30_encoding.md rule R70, an observation the decoder does not use). -/
theorem operand_count_observation (o : Opcode) : o.byte.toNat / 64 + 1 = o.length := by
  cases o <;> rfl

end Sys2Proof
end

