-- ==== Sys2Proof/Laws/State.lean ====
section
/-! SUPPORT. One lemma for each field of the state and each update of it. -/

namespace Sys2Proof.Machine

variable (s : State) (r : Reg) (v a : Byte) (ru : RunState)

@[simp] theorem setReg_mem : (s.setReg r v).mem = s.mem := rfl
@[simp] theorem setReg_pc : (s.setReg r v).pc = s.pc := rfl
@[simp] theorem setReg_fl : (s.setReg r v).fl = s.fl := rfl
@[simp] theorem setReg_run : (s.setReg r v).run = s.run := rfl
@[simp] theorem setReg_out : (s.setReg r v).out = s.out := rfl

@[simp] theorem writeReg_mem (n : Nat) : (s.writeReg r n).mem = s.mem := rfl
@[simp] theorem writeReg_pc (n : Nat) : (s.writeReg r n).pc = s.pc := rfl
@[simp] theorem writeReg_fl (n : Nat) : (s.writeReg r n).fl = s.fl := rfl
@[simp] theorem writeReg_run (n : Nat) : (s.writeReg r n).run = s.run := rfl
@[simp] theorem writeReg_out (n : Nat) : (s.writeReg r n).out = s.out := rfl

@[simp] theorem setSp_mem : (s.setSp v).mem = s.mem := rfl
@[simp] theorem setSp_pc : (s.setSp v).pc = s.pc := rfl
@[simp] theorem setSp_fl : (s.setSp v).fl = s.fl := rfl
@[simp] theorem setSp_run : (s.setSp v).run = s.run := rfl
@[simp] theorem setSp_out : (s.setSp v).out = s.out := rfl

@[simp] theorem setPc_mem : (s.setPc v).mem = s.mem := rfl
@[simp] theorem setPc_x : (s.setPc v).x = s.x := rfl
@[simp] theorem setPc_pc : (s.setPc v).pc = v := rfl
@[simp] theorem setPc_fl : (s.setPc v).fl = s.fl := rfl
@[simp] theorem setPc_run : (s.setPc v).run = s.run := rfl
@[simp] theorem setPc_out : (s.setPc v).out = s.out := rfl

@[simp] theorem setFl_mem : (s.setFl v).mem = s.mem := rfl
@[simp] theorem setFl_x : (s.setFl v).x = s.x := rfl
@[simp] theorem setFl_pc : (s.setFl v).pc = s.pc := rfl
@[simp] theorem setFl_fl : (s.setFl v).fl = v := rfl
@[simp] theorem setFl_run : (s.setFl v).run = s.run := rfl
@[simp] theorem setFl_out : (s.setFl v).out = s.out := rfl

@[simp] theorem setRun_mem : (s.setRun ru).mem = s.mem := rfl
@[simp] theorem setRun_x : (s.setRun ru).x = s.x := rfl
@[simp] theorem setRun_pc : (s.setRun ru).pc = s.pc := rfl
@[simp] theorem setRun_fl : (s.setRun ru).fl = s.fl := rfl
@[simp] theorem setRun_run : (s.setRun ru).run = ru := rfl
@[simp] theorem setRun_out : (s.setRun ru).out = s.out := rfl

@[simp] theorem output_mem : (s.output v).mem = s.mem := rfl
@[simp] theorem output_x : (s.output v).x = s.x := rfl
@[simp] theorem output_pc : (s.output v).pc = s.pc := rfl
@[simp] theorem output_fl : (s.output v).fl = s.fl := rfl
@[simp] theorem output_run : (s.output v).run = s.run := rfl
@[simp] theorem output_out : (s.output v).out = s.out ++ [v] := rfl

@[simp] theorem writeMem_mem : (s.writeMem a v).mem = Memory.set a.toNat v s.mem := rfl
@[simp] theorem writeMem_x : (s.writeMem a v).x = s.x := rfl
@[simp] theorem writeMem_pc : (s.writeMem a v).pc = s.pc := rfl
@[simp] theorem writeMem_fl : (s.writeMem a v).fl = s.fl := rfl
@[simp] theorem writeMem_run : (s.writeMem a v).run = s.run := rfl
@[simp] theorem writeMem_out : (s.writeMem a v).out = s.out := rfl

/-! What the accessors read after an update. -/

@[simp] theorem readReg_setPc : (s.setPc v).readReg r = s.readReg r := rfl
@[simp] theorem readReg_setFl : (s.setFl v).readReg r = s.readReg r := rfl
@[simp] theorem readReg_setRun : (s.setRun ru).readReg r = s.readReg r := rfl
@[simp] theorem readReg_output : (s.output v).readReg r = s.readReg r := rfl
@[simp] theorem readReg_writeMem : (s.writeMem a v).readReg r = s.readReg r := rfl

@[simp] theorem sp_setPc : (s.setPc v).sp = s.sp := rfl
@[simp] theorem sp_setFl : (s.setFl v).sp = s.sp := rfl
@[simp] theorem sp_setRun : (s.setRun ru).sp = s.sp := rfl
@[simp] theorem sp_output : (s.output v).sp = s.sp := rfl
@[simp] theorem sp_writeMem : (s.writeMem a v).sp = s.sp := rfl

@[simp] theorem readMem_setReg : (s.setReg r v).readMem a = s.readMem a := rfl
@[simp] theorem readMem_writeReg (n : Nat) : (s.writeReg r n).readMem a = s.readMem a := rfl
@[simp] theorem readMem_setSp : (s.setSp v).readMem a = s.readMem a := rfl
@[simp] theorem readMem_setPc : (s.setPc v).readMem a = s.readMem a := rfl
@[simp] theorem readMem_setFl : (s.setFl v).readMem a = s.readMem a := rfl
@[simp] theorem readMem_setRun : (s.setRun ru).readMem a = s.readMem a := rfl
@[simp] theorem readMem_output : (s.output v).readMem a = s.readMem a := rfl

theorem readReg_setReg (r' : Reg) : (s.setReg r v).readReg r' = if r' = r then v else s.readReg r' := by
  show (s.x.set r v)[r'.val] = if r' = r then v else s.x[r'.val]
  rw [Vector.getElem_set]
  by_cases h : r' = r
  · simp [h]
  · rw [if_neg (fun hv => h (Fin.ext hv.symm)), if_neg h]

@[simp] theorem readReg_setReg_same : (s.setReg r v).readReg r = v := by
  rw [readReg_setReg, if_pos rfl]

theorem readReg_setReg_other {r' : Reg} (h : r' ≠ r) : (s.setReg r v).readReg r' = s.readReg r' := by
  rw [readReg_setReg, if_neg h]

theorem readReg_writeReg (n : Nat) (r' : Reg) :
    (s.writeReg r n).readReg r' = if r' = r then trunc8 n else s.readReg r' := readReg_setReg s r (trunc8 n) r'

theorem readReg_setSp (r' : Reg) : (s.setSp v).readReg r' = if r' = config.spIndex then v else s.readReg r' :=
  readReg_setReg s config.spIndex v r'

@[simp] theorem sp_setSp : (s.setSp v).sp = v := readReg_setReg_same s config.spIndex v

theorem sp_setReg : (s.setReg r v).sp = if r = config.spIndex then v else s.sp := by
  rw [State.sp, readReg_setReg]
  by_cases h : r = config.spIndex
  · simp [h]
  · rw [if_neg (Ne.symm h), if_neg h]; rfl

/-- The truncation of rule R22 on integers. -/
@[simp] theorem trunc8_toNat (n : Nat) : (trunc8 n).toNat = n % 256 := by
  simp [trunc8]

end Sys2Proof.Machine
end

