-- ==== Sys2Proof/Laws/Ops.lean ====
section
/-! SUPPORT. One lemma for each shared operation that says everything it can answer. -/

namespace Sys2Proof.Machine

/-- A chain of checks succeeds exactly when each of its parts does. -/
theorem bind_eq_ok {ε α β : Type} {x : Except ε α} {f : α → Except ε β} {b : β} :
    (x >>= f) = .ok b ↔ ∃ a, x = .ok a ∧ f a = .ok b := by
  cases x <;> simp [bind, Except.bind]

/-- A chain of checks fails with the first error. -/
theorem bind_eq_error {ε α β : Type} {x : Except ε α} {f : α → Except ε β} {e : ε} :
    (x >>= f) = .error e ↔ x = .error e ∨ ∃ a, x = .ok a ∧ f a = .error e := by
  cases x <;> simp [bind, Except.bind]

theorem pure_eq_ok {ε α : Type} {a b : α} : (pure a : Except ε α) = .ok b ↔ a = b := by
  simp [pure, Except.pure]

theorem pure_ne_error {ε α : Type} {a : α} {e : ε} : (pure a : Except ε α) ≠ .error e := by
  simp [pure, Except.pure]

/-- Raising an error answers the state with `run` FAULTED and nothing else changed. -/
theorem raise_eq (e : FatalError) (s : State) : raise e s = .next (s.setRun (.faulted e)) := rfl

/-- An instruction ends in its effects, or in the error of a check with nothing else changed. -/
theorem commit_eq_next {s t : State} {x : Except FatalError State} :
    commit s x = .next t ↔ x = .ok t ∨ ∃ e, x = .error e ∧ t = s.setRun (.faulted e) := by
  cases x <;> simp [commit, raise, eq_comm]

/-- `commit` always answers a next state. -/
theorem commit_is_next (s : State) (x : Except FatalError State) : ∃ t, commit s x = .next t := by
  cases x
  · exact ⟨_, rfl⟩
  · exact ⟨_, rfl⟩

theorem regOperand_eq_ok {b : Byte} {r : Reg} : regOperand b = .ok r ↔ b.toNat = r.val := by
  unfold regOperand
  split
  · simp [Fin.ext_iff]
  · rename_i h
    simp only [reduceCtorEq, false_iff]
    omega

theorem regOperand_eq_error {b : Byte} {e : FatalError} :
    regOperand b = .error e ↔ b.toNat > 7 ∧ e = .registerIndexError b := by
  unfold regOperand
  split
  · simp; omega
  · simp [eq_comm]; omega

/-- The operand byte of a register names that register. -/
@[simp] theorem regOperand_regByte (r : Reg) : regOperand (regByte r) = .ok r := by
  rw [regOperand_eq_ok]
  simp only [regByte, BitVec.toNat_ofNat]
  omega

theorem spDecrement_eq_ok {v w : Byte} : spDecrement v = .ok w ↔ v.toNat = w.toNat + 1 := by
  simp only [spDecrement, config, and_true]
  split
  · rename_i h; subst h; simp
  · rename_i h
    have : v.toNat ≠ 0 := fun hv => h (BitVec.eq_of_toNat_eq (by simpa using hv))
    rw [Except.ok.injEq, ← BitVec.toNat_inj]
    bv_omega

theorem spDecrement_eq_error {v : Byte} {e : FatalError} :
    spDecrement v = .error e ↔ v = 0 ∧ e = .addressError .stack (-1) := by
  simp only [spDecrement, config, and_true]
  split
  · rename_i h; exact ⟨fun he => ⟨h, (Except.error.inj he).symm⟩, fun ⟨_, he⟩ => he ▸ rfl⟩
  · rename_i h; exact ⟨fun he => (nomatch he), fun ⟨hv, _⟩ => absurd hv h⟩

theorem spIncrement_eq_ok {v w : Byte} : spIncrement v = .ok w ↔ w.toNat = v.toNat + 1 := by
  simp only [spIncrement, config, and_true]
  split
  · rename_i h; subst h; simp; omega
  · rename_i h
    have : v.toNat ≠ 255 := fun hv => h (BitVec.eq_of_toNat_eq (by simpa using hv))
    rw [Except.ok.injEq, ← BitVec.toNat_inj]
    bv_omega

theorem spIncrement_eq_error {v : Byte} {e : FatalError} :
    spIncrement v = .error e ↔ v = 255 ∧ e = .addressError .stack 256 := by
  simp only [spIncrement, config, and_true]
  split
  · rename_i h; exact ⟨fun he => ⟨h, (Except.error.inj he).symm⟩, fun ⟨_, he⟩ => he ▸ rfl⟩
  · rename_i h; exact ⟨fun he => (nomatch he), fun ⟨hv, _⟩ => absurd hv h⟩

theorem followingPc_eq_ok {s : State} {len : Nat} {k : AddressKind} {p : Byte} :
    followingPc s len k = .ok p ↔ p.toNat = s.pc.toNat + len := by
  unfold followingPc
  split
  · simp only [reduceCtorEq, false_iff]; omega
  · rw [Except.ok.injEq, ← BitVec.toNat_inj, trunc8_toNat]; omega

theorem followingPc_eq_error {s : State} {len : Nat} {k : AddressKind} {e : FatalError} :
    followingPc s len k = .error e ↔ s.pc.toNat + len > 255 ∧ e = .addressError k 256 := by
  unfold followingPc
  split
  · rename_i h; exact ⟨fun he => ⟨h, (Except.error.inj he).symm⟩, fun ⟨_, he⟩ => he ▸ rfl⟩
  · rename_i h; simp [h]

theorem nextPc_eq_ok {s : State} {len : Nat} {p : Byte} : nextPc s len = .ok p ↔ p.toNat = s.pc.toNat + len :=
  followingPc_eq_ok

theorem nextPc_eq_error {s : State} {len : Nat} {e : FatalError} :
    nextPc s len = .error e ↔ s.pc.toNat + len > 255 ∧ e = .addressError .nextPc 256 := followingPc_eq_error

/-- What CMP writes: one of three values, by the unsigned order. -/
theorem compareFlags_cases (a b : Byte) :
    (a.toNat = b.toNat ∧ compareFlags a b = 0x01) ∨ (a.toNat > b.toNat ∧ compareFlags a b = 0x02) ∨
      (a.toNat < b.toNat ∧ compareFlags a b = 0x04) := by
  unfold compareFlags
  split
  · exact .inl ⟨‹_›, rfl⟩
  · split
    · exact .inr (.inl ⟨‹_›, rfl⟩)
    · exact .inr (.inr ⟨by omega, rfl⟩)

/-! The ALU: what each field holds after one operation. -/

@[simp] theorem alu_mem (op : AluOp) (a b : Reg) (s : State) : (alu op a b s).mem = s.mem := by cases op <;> rfl
@[simp] theorem alu_pc (op : AluOp) (a b : Reg) (s : State) : (alu op a b s).pc = s.pc := by cases op <;> rfl
@[simp] theorem alu_run (op : AluOp) (a b : Reg) (s : State) : (alu op a b s).run = s.run := by cases op <;> rfl
@[simp] theorem alu_out (op : AluOp) (a b : Reg) (s : State) : (alu op a b s).out = s.out := by cases op <;> rfl
@[simp] theorem alu_add_fl (a b : Reg) (s : State) : (alu .add a b s).fl = s.fl := rfl
@[simp] theorem alu_mult_fl (a b : Reg) (s : State) : (alu .mult a b s).fl = s.fl := rfl
@[simp] theorem alu_cmp_fl (a b : Reg) (s : State) :
    (alu .cmp a b s).fl = compareFlags (s.readReg a) (s.readReg b) := rfl

theorem readReg_alu_add (a b r : Reg) (s : State) :
    (alu .add a b s).readReg r = if r = a then trunc8 ((s.readReg a).toNat + (s.readReg b).toNat) else s.readReg r :=
  readReg_writeReg s a _ r

theorem readReg_alu_mult (a b r : Reg) (s : State) :
    (alu .mult a b s).readReg r = if r = a then trunc8 ((s.readReg a).toNat * (s.readReg b).toNat) else s.readReg r :=
  readReg_writeReg s a _ r

@[simp] theorem readReg_alu_cmp (a b r : Reg) (s : State) : (alu .cmp a b s).readReg r = s.readReg r := rfl

/-! A push: what each field holds after its store. -/

@[simp] theorem pushAt_mem (s : State) (a v : Byte) : (pushAt s a v).mem = Memory.set a.toNat v s.mem := rfl
@[simp] theorem pushAt_pc (s : State) (a v : Byte) : (pushAt s a v).pc = s.pc := rfl
@[simp] theorem pushAt_fl (s : State) (a v : Byte) : (pushAt s a v).fl = s.fl := rfl
@[simp] theorem pushAt_run (s : State) (a v : Byte) : (pushAt s a v).run = s.run := rfl
@[simp] theorem pushAt_out (s : State) (a v : Byte) : (pushAt s a v).out = s.out := rfl
@[simp] theorem readReg_pushAt (s : State) (a v : Byte) (r : Reg) :
    (pushAt s a v).readReg r = (s.setSp a).readReg r := rfl
@[simp] theorem sp_pushAt (s : State) (a v : Byte) : (pushAt s a v).sp = a := sp_setSp s a

end Sys2Proof.Machine
end

