-- ==== Sys2Proof/Laws/Exec.lean ====
section
/-! SUPPORT. For each meaning, everything it can do when it answers a next state: its effects, or a fatal error
with nothing else changed. Later proofs cite these and do not unfold a meaning. -/

namespace Sys2Proof.Machine

variable {s t : State}

/-- The state in which a fatal error has ended the instruction started in `s`. -/
def RaisedIn (s t : State) : Prop := ∃ e, t = s.setRun (.faulted e)

theorem commit_next_cases {x : Except FatalError State} (h : commit s x = .next t) : x = .ok t ∨ RaisedIn s t := by
  rcases commit_eq_next.1 h with hx | ⟨e, _, ht⟩
  · exact .inl hx
  · exact .inr ⟨e, ht⟩

theorem execHalt_next (h : execHalt s = .next t) : t = s.setRun .halted := by
  simpa [execHalt, eq_comm] using h

theorem execPrn_next {reg : Byte} (h : execPrn reg s = .next t) :
    (∃ r p, reg.toNat = r.val ∧ p.toNat = s.pc.toNat + 2 ∧ t = (s.output (s.readReg r)).setPc p) ∨ RaisedIn s t := by
  refine (commit_next_cases h).imp_left fun hx => ?_
  obtain ⟨r, hr, hx⟩ := bind_eq_ok.1 hx
  obtain ⟨p, hp, hx⟩ := bind_eq_ok.1 hx
  exact ⟨r, p, regOperand_eq_ok.1 hr, nextPc_eq_ok.1 hp, (pure_eq_ok.1 hx).symm⟩

theorem execLdi_next {reg val : Byte} (h : execLdi reg val s = .next t) :
    (∃ r p, reg.toNat = r.val ∧ p.toNat = s.pc.toNat + 3 ∧ t = (s.setReg r val).setPc p) ∨ RaisedIn s t := by
  refine (commit_next_cases h).imp_left fun hx => ?_
  obtain ⟨r, hr, hx⟩ := bind_eq_ok.1 hx
  obtain ⟨p, hp, hx⟩ := bind_eq_ok.1 hx
  exact ⟨r, p, regOperand_eq_ok.1 hr, nextPc_eq_ok.1 hp, (pure_eq_ok.1 hx).symm⟩

theorem aluInstr_next {op : AluOp} {regA regB : Byte} (h : aluInstr op regA regB s = .next t) :
    (∃ a b p, regA.toNat = a.val ∧ regB.toNat = b.val ∧ p.toNat = s.pc.toNat + 3 ∧ t = (alu op a b s).setPc p) ∨
      RaisedIn s t := by
  refine (commit_next_cases h).imp_left fun hx => ?_
  obtain ⟨a, ha, hx⟩ := bind_eq_ok.1 hx
  obtain ⟨b, hb, hx⟩ := bind_eq_ok.1 hx
  obtain ⟨p, hp, hx⟩ := bind_eq_ok.1 hx
  exact ⟨a, b, p, regOperand_eq_ok.1 ha, regOperand_eq_ok.1 hb, nextPc_eq_ok.1 hp, (pure_eq_ok.1 hx).symm⟩

theorem execPush_next {reg : Byte} (h : execPush reg s = .next t) :
    (∃ r a p, reg.toNat = r.val ∧ spDecrement s.sp = .ok a ∧ p.toNat = s.pc.toNat + 2 ∧
      t = (pushAt s a ((s.setSp a).readReg r)).setPc p) ∨ RaisedIn s t := by
  refine (commit_next_cases h).imp_left fun hx => ?_
  obtain ⟨r, hr, hx⟩ := bind_eq_ok.1 hx
  obtain ⟨a, ha, hx⟩ := bind_eq_ok.1 hx
  obtain ⟨p, hp, hx⟩ := bind_eq_ok.1 hx
  exact ⟨r, a, p, regOperand_eq_ok.1 hr, ha, nextPc_eq_ok.1 hp, (pure_eq_ok.1 hx).symm⟩

theorem execPop_next {reg : Byte} (h : execPop reg s = .next t) :
    (∃ r a p, reg.toNat = r.val ∧ spIncrement (popBase s r) = .ok a ∧ p.toNat = s.pc.toNat + 2 ∧
      t = ((s.setReg r (s.readMem s.sp)).setSp a).setPc p) ∨ RaisedIn s t := by
  refine (commit_next_cases h).imp_left fun hx => ?_
  obtain ⟨r, hr, hx⟩ := bind_eq_ok.1 hx
  obtain ⟨a, ha, hx⟩ := bind_eq_ok.1 hx
  obtain ⟨p, hp, hx⟩ := bind_eq_ok.1 hx
  exact ⟨r, a, p, regOperand_eq_ok.1 hr, ha, nextPc_eq_ok.1 hp, (pure_eq_ok.1 hx).symm⟩

theorem execCall_next {reg : Byte} (h : execCall reg s = .next t) :
    (∃ r a p, reg.toNat = r.val ∧ spDecrement s.sp = .ok a ∧ p.toNat = s.pc.toNat + 2 ∧
      t = (pushAt s a p).setPc ((s.setSp a).readReg r)) ∨ RaisedIn s t := by
  refine (commit_next_cases h).imp_left fun hx => ?_
  obtain ⟨r, hr, hx⟩ := bind_eq_ok.1 hx
  obtain ⟨a, ha, hx⟩ := bind_eq_ok.1 hx
  obtain ⟨p, hp, hx⟩ := bind_eq_ok.1 hx
  exact ⟨r, a, p, regOperand_eq_ok.1 hr, ha, followingPc_eq_ok.1 hp, (pure_eq_ok.1 hx).symm⟩

theorem execRet_next (h : execRet s = .next t) :
    (∃ a, spIncrement s.sp = .ok a ∧ t = (s.setSp a).setPc (s.readMem s.sp)) ∨ RaisedIn s t := by
  refine (commit_next_cases h).imp_left fun hx => ?_
  obtain ⟨a, ha, hx⟩ := bind_eq_ok.1 hx
  exact ⟨a, ha, (pure_eq_ok.1 hx).symm⟩

theorem jumpIf_next {cond : Byte → Bool} {reg : Byte} (h : jumpIf cond reg s = .next t) :
    (∃ r, reg.toNat = r.val ∧ cond s.fl = true ∧ t = s.setPc (s.readReg r)) ∨
      (∃ (r : Reg) (p : Byte), reg.toNat = r.val ∧ cond s.fl = false ∧ p.toNat = s.pc.toNat + 2 ∧ t = s.setPc p) ∨
      RaisedIn s t := by
  rcases commit_next_cases h with hx | hr
  · obtain ⟨r, hr, hx⟩ := bind_eq_ok.1 hx
    split at hx
    · exact .inl ⟨r, regOperand_eq_ok.1 hr, ‹_›, (pure_eq_ok.1 hx).symm⟩
    · rename_i hc
      obtain ⟨p, hp, hx⟩ := bind_eq_ok.1 hx
      exact .inr (.inl ⟨r, p, regOperand_eq_ok.1 hr, by simpa using hc, nextPc_eq_ok.1 hp, (pure_eq_ok.1 hx).symm⟩)
  · exact .inr (.inr hr)

theorem execJmp_next {reg : Byte} (h : execJmp reg s = .next t) :
    (∃ r, reg.toNat = r.val ∧ t = s.setPc (s.readReg r)) ∨ RaisedIn s t := by
  refine (commit_next_cases h).imp_left fun hx => ?_
  obtain ⟨r, hr, hx⟩ := bind_eq_ok.1 hx
  exact ⟨r, regOperand_eq_ok.1 hr, (pure_eq_ok.1 hx).symm⟩

/-- No instruction stops: every meaning answers a next state from every state. -/
theorem exec_is_next (i : Instr) (s : State) : ∃ t, exec i s = .next t := by
  cases i
  case halt => exact ⟨_, rfl⟩
  all_goals exact commit_is_next s _

end Sys2Proof.Machine
end

