-- ==== Sys2Proof/Laws/Memory.lean ====
section
/-! SUPPORT. Memory: read after write, and that every memory operation keeps the canonical form. -/

namespace Sys2Proof.Machine

/-- In a memory whose listed addresses are all at least `lo`, an address below `lo` is not listed. -/
theorem get_below {lo a : Nat} (h : a < lo) : ∀ {m : Memory}, Memory.wfFrom lo m = true → Memory.get m a = config.memReset
  | [], _ => rfl
  | (k, b) :: m, hw => by
    simp only [Memory.wfFrom, Bool.and_eq_true, decide_eq_true_eq] at hw
    obtain ⟨⟨⟨hlo, _⟩, _⟩, hm⟩ := hw
    rw [Memory.get, if_neg (by omega)]
    exact get_below (lo := k + 1) (by omega) hm

theorem wfFrom_mono {lo lo' : Nat} (h : lo' ≤ lo) : ∀ {m : Memory}, Memory.wfFrom lo m = true → Memory.wfFrom lo' m = true
  | [], _ => rfl
  | (k, b) :: m, hw => by
    simp only [Memory.wfFrom, Bool.and_eq_true, decide_eq_true_eq] at hw ⊢
    exact ⟨⟨⟨by omega, hw.1.1.2⟩, hw.1.2⟩, hw.2⟩

theorem get_cell_append (a c : Nat) (v : Byte) (m : Memory) (h : c ≠ a) :
    Memory.get (Memory.cell a v ++ m) c = Memory.get m c := by
  unfold Memory.cell
  split
  · rfl
  · simp [Memory.get, Ne.symm h]

theorem get_cell_append_same (a : Nat) (v : Byte) (m : Memory) (h : Memory.get m a = config.memReset) :
    Memory.get (Memory.cell a v ++ m) a = v := by
  unfold Memory.cell
  split
  · rename_i hv; rw [hv]; exact h
  · simp [Memory.get]

/-- A write leaves every other cell alone (20_memory.md rule R44), in any memory. -/
theorem get_set_other (a c : Nat) (v : Byte) (h : c ≠ a) : ∀ m : Memory, Memory.get (Memory.set a v m) c = Memory.get m c
  | [] => by simpa [Memory.set] using get_cell_append a c v [] h
  | (k, b) :: m => by
    unfold Memory.set
    split
    · exact get_cell_append a c v _ h
    · split
      · rename_i hk
        rw [get_cell_append a c v m h, Memory.get, if_neg (by omega)]
      · rw [Memory.get, Memory.get, get_set_other a c v h m]

theorem get_set_same_from (a : Nat) (v : Byte) :
    ∀ {m : Memory} {lo : Nat}, Memory.wfFrom lo m = true → Memory.get (Memory.set a v m) a = v
  | [], _, _ => by simpa [Memory.set] using get_cell_append_same a v [] rfl
  | (k, b) :: m, lo, hw => by
    simp only [Memory.wfFrom, Bool.and_eq_true, decide_eq_true_eq] at hw
    unfold Memory.set
    split
    · rename_i hk
      refine get_cell_append_same a v _ ?_
      rw [Memory.get, if_neg (by omega)]
      exact get_below (lo := k + 1) (by omega) hw.2
    · split
      · exact get_cell_append_same a v m (get_below (lo := k + 1) (by omega) hw.2)
      · rw [Memory.get, if_neg (by omega)]
        exact get_set_same_from a v hw.2

/-- A read after a write to the same cell gives the value written (20_memory.md rule R49). -/
theorem get_set_same (a : Nat) (v : Byte) {m : Memory} (h : m.wf = true) : Memory.get (Memory.set a v m) a = v :=
  get_set_same_from a v h

theorem wfFrom_cell_append {lo a : Nat} {v : Byte} {m : Memory} (hlo : lo ≤ a) (ha : a ≤ 255)
    (hm : Memory.wfFrom (a + 1) m = true) : Memory.wfFrom lo (Memory.cell a v ++ m) = true := by
  unfold Memory.cell
  split
  · exact wfFrom_mono (by omega) hm
  · rename_i hv
    simp [Memory.wfFrom, hlo, ha, hv, hm]

theorem set_wfFrom (a : Nat) (v : Byte) (ha : a ≤ 255) :
    ∀ {m : Memory} {lo : Nat}, lo ≤ a → Memory.wfFrom lo m = true → Memory.wfFrom lo (Memory.set a v m) = true
  | [], lo, hlo, _ => by simpa [Memory.set] using wfFrom_cell_append (m := []) hlo ha rfl
  | (k, b) :: m, lo, hlo, hw => by
    simp only [Memory.wfFrom, Bool.and_eq_true, decide_eq_true_eq] at hw
    unfold Memory.set
    split
    · refine wfFrom_cell_append hlo ha ?_
      simp only [Memory.wfFrom, Bool.and_eq_true, decide_eq_true_eq]
      exact ⟨⟨⟨by omega, hw.1.1.2⟩, hw.1.2⟩, hw.2⟩
    · split
      · rename_i hk
        exact wfFrom_cell_append hlo ha (hk ▸ hw.2)
      · simp only [Memory.wfFrom, Bool.and_eq_true, decide_eq_true_eq]
        exact ⟨hw.1, set_wfFrom a v ha (by omega) hw.2⟩

/-- A write to an address of the address space keeps the canonical form. -/
theorem set_wf {a : Nat} (v : Byte) (ha : a ≤ 255) {m : Memory} (h : m.wf = true) : (Memory.set a v m).wf = true :=
  set_wfFrom a v ha (Nat.zero_le a) h

/-- Storing bytes from an address up keeps the canonical form. -/
theorem setFrom_wf : ∀ (vs : List Byte) (a : Nat) {m : Memory}, m.wf = true → (Memory.setFrom a vs m).wf = true
  | [], _, _, h => h
  | v :: vs, a, m, h => by
    unfold Memory.setFrom
    split
    · rename_i ha
      exact setFrom_wf vs (a + 1) (set_wf v ha h)
    · exact h

/-- A write through the state keeps the canonical form. -/
theorem writeMem_wf (s : State) (a v : Byte) (h : s.mem.wf = true) : (s.writeMem a v).mem.wf = true :=
  set_wf v (by omega) h

theorem reset_mem_wf : State.reset.mem.wf = true := rfl

theorem readMem_writeMem_other (s : State) (a v c : Byte) (h : c ≠ a) : (s.writeMem a v).readMem c = s.readMem c :=
  get_set_other a.toNat c.toNat v (fun e => h (BitVec.eq_of_toNat_eq e)) s.mem

theorem readMem_writeMem_same (s : State) (a v : Byte) (h : s.mem.wf = true) : (s.writeMem a v).readMem a = v :=
  get_set_same a.toNat v h

/-- What every cell reads after bytes are stored from `a` up: the stored byte inside the range, what it read
before outside it. -/
theorem get_setFrom : ∀ (vs : List Byte) (a c : Nat) {m : Memory}, m.wf = true → c ≤ 255 →
    Memory.get (Memory.setFrom a vs m) c = if h : a ≤ c ∧ c - a < vs.length then vs[c - a]'h.2 else Memory.get m c
  | [], a, c, m, _, _ => by simp [Memory.setFrom]
  | v :: vs, a, c, m, hm, hc => by
    unfold Memory.setFrom
    split
    · rename_i ha
      rw [get_setFrom vs (a + 1) c (set_wf v ha hm) hc]
      by_cases hac : c = a
      · subst hac
        simp [get_set_same c v hm]
      · by_cases hin : a + 1 ≤ c ∧ c - (a + 1) < vs.length
        · have h2 : a ≤ c ∧ c - a < (v :: vs).length := ⟨by omega, by simp only [List.length_cons]; omega⟩
          rw [dif_pos hin, dif_pos h2]
          have : c - a = (c - (a + 1)) + 1 := by omega
          simp [this]
        · rw [dif_neg hin, dif_neg (by simp only [List.length_cons]; omega), get_set_other a c v hac]
    · rw [dif_neg (by omega)]

end Sys2Proof.Machine
end

