-- ==== Sys2Proof/Laws/PerInstr.lean ====
section
/-! SUPPORT. The statements made of every instruction, one lemma for each constructor. -/

namespace Sys2Proof.Laws.EncodeLength

/-- The encoding of an instruction has the length its opcode fixes, one to three bytes
(30_encoding.md rules R60, R61). -/
def Statement (i : Instr) : Prop := (encode i).length = i.length ∧ 1 ≤ i.length ∧ i.length ≤ 3

theorem halt : Statement .halt := ⟨rfl, by decide, by decide⟩
theorem prn (reg : Byte) : Statement (.prn reg) := ⟨rfl, Nat.le_of_ble_eq_true rfl, Nat.le_of_ble_eq_true rfl⟩
theorem ldi (reg val : Byte) : Statement (.ldi reg val) := ⟨rfl, Nat.le_of_ble_eq_true rfl, Nat.le_of_ble_eq_true rfl⟩
theorem add (regA regB : Byte) : Statement (.add regA regB) := ⟨rfl, Nat.le_of_ble_eq_true rfl, Nat.le_of_ble_eq_true rfl⟩
theorem mul (regA regB : Byte) : Statement (.mul regA regB) := ⟨rfl, Nat.le_of_ble_eq_true rfl, Nat.le_of_ble_eq_true rfl⟩
theorem push (reg : Byte) : Statement (.push reg) := ⟨rfl, Nat.le_of_ble_eq_true rfl, Nat.le_of_ble_eq_true rfl⟩
theorem pop (reg : Byte) : Statement (.pop reg) := ⟨rfl, Nat.le_of_ble_eq_true rfl, Nat.le_of_ble_eq_true rfl⟩
theorem call (reg : Byte) : Statement (.call reg) := ⟨rfl, Nat.le_of_ble_eq_true rfl, Nat.le_of_ble_eq_true rfl⟩
theorem ret : Statement .ret := ⟨rfl, by decide, by decide⟩
theorem cmp (regA regB : Byte) : Statement (.cmp regA regB) := ⟨rfl, Nat.le_of_ble_eq_true rfl, Nat.le_of_ble_eq_true rfl⟩
theorem jeq (reg : Byte) : Statement (.jeq reg) := ⟨rfl, Nat.le_of_ble_eq_true rfl, Nat.le_of_ble_eq_true rfl⟩
theorem jne (reg : Byte) : Statement (.jne reg) := ⟨rfl, Nat.le_of_ble_eq_true rfl, Nat.le_of_ble_eq_true rfl⟩
theorem jmp (reg : Byte) : Statement (.jmp reg) := ⟨rfl, Nat.le_of_ble_eq_true rfl, Nat.le_of_ble_eq_true rfl⟩

end Sys2Proof.Laws.EncodeLength
end

