-- ==== Sys2Proof/Laws/Step.lean ====
section
/-! SUPPORT. What one step can do. -/

namespace Sys2Proof.Machine

variable {s t : State}

theorem step_running (h : s.run = .running) :
    step s = match fetch s with
      | .ok i => exec i s
      | .error e => raise e s := by
  cases hf : fetch s <;> simp [step, h, hf]

theorem step_halted (h : s.run = .halted) : step s = .fault .afterHalt := by
  simp only [step, h]

theorem step_faulted {e : FatalError} (h : s.run = .faulted e) : step s = .fault (.afterFatalError e) := by
  simp only [step, h]

/-- A step that answers a next state was taken in RUNNING, and either ran the fetched instruction or raised the
error of fetching it. -/
theorem step_next_cases (h : step s = .next t) :
    s.run = .running ∧ ((∃ i, fetch s = .ok i ∧ exec i s = .next t) ∨ RaisedIn s t) := by
  cases hr : s.run with
  | halted => simp [step_halted hr] at h
  | faulted e => simp [step_faulted hr] at h
  | running =>
    rw [step_running hr] at h
    cases hf : fetch s with
    | ok i => rw [hf] at h; exact ⟨rfl, .inl ⟨i, rfl, h⟩⟩
    | error e =>
      rw [hf] at h
      exact ⟨rfl, .inr ⟨e, by simpa [raise, eq_comm] using h⟩⟩

/-- The bytes read from address `a` up. -/
theorem bytesFrom_get (s : State) : ∀ (n a k : Nat), k < n → a + k ≤ 255 → (bytesFrom s a n)[k]? = some (Memory.get s.mem (a + k))
  | n + 1, a, 0, _, h => by simp [bytesFrom, show a ≤ 255 by omega]
  | n + 1, a, k + 1, hk, h => by
    have := bytesFrom_get s n (a + 1) k (by omega) (by omega)
    simp [bytesFrom, show a ≤ 255 by omega, this, Nat.add_assoc, Nat.add_comm 1 k]

/-- How many bytes are read from address `a` up: those whose address is at most 255. -/
theorem bytesFrom_length (s : State) : ∀ (n a : Nat), (bytesFrom s a n).length = min n (256 - a)
  | 0, _ => by simp [bytesFrom]
  | n + 1, a => by
    unfold bytesFrom
    split
    · simp [bytesFrom_length s n (a + 1)]; omega
    · simp; omega

theorem readMem_add (s : State) (a : Byte) (k : Nat) (h : a.toNat + k ≤ 255) :
    s.readMem (a + BitVec.ofNat 8 k) = Memory.get s.mem (a.toNat + k) := by
  unfold State.readMem
  congr 1
  simp [BitVec.toNat_add]
  omega

/-! Runs of the machine, one step at a time. -/

theorem run_zero (s : State) : Sys2Proof.core.run 0 s = .next s := rfl

theorem run_succ_of_step {n : Nat} (h : step s = .next t) : Sys2Proof.core.run (n + 1) s = Sys2Proof.core.run n t := by
  have hc : Sys2Proof.core.step s = .next t := h
  simp only [Host.Core.run, hc]

/-- A run of one step more that answers a next state began with a step that does. -/
theorem run_succ_next {n : Nat} {u : State} (h : Sys2Proof.core.run (n + 1) s = .next u) :
    ∃ t : State, step s = .next t ∧ Sys2Proof.core.run n t = .next u := by
  cases hs : step s with
  | next t => exact ⟨t, rfl, (run_succ_of_step hs).symm.trans h⟩
  | fault r =>
    have hc : Sys2Proof.core.step s = .fault r := hs
    simp only [Host.Core.run, hc] at h
    cases h
  | refused r =>
    have hc : Sys2Proof.core.step s = .refused r := hs
    simp only [Host.Core.run, hc] at h
    cases h

end Sys2Proof.Machine
end

