-- ==== Sys2Proof/Tests/Slice0.lean ====
section
/-! SUPPORT. Tests: words written out from the encodings of 30_encoding.md, the vectors of 95_test_vectors.md (one
step each), and for each obligation with hypotheses a state and operands that meet all of them. -/

namespace Sys2Proof.Tests

open Sys2Proof.Machine

/-- A running machine with these bytes at `pc`, these registers and these flags, and nothing else. -/
def machine (pc : Byte) (bytes : List Byte) (regs : List (Reg × Byte)) (fl : Byte) : State :=
  regs.foldl (fun s p => s.setReg p.1 p.2)
    { State.reset with pc := pc, fl := fl, mem := Memory.setFrom pc.toNat bytes [] }

/-- Whether a step answers a next state that passes a check. -/
def after (r : Result) (check : State → Bool) : Bool :=
  match r with
  | .next t => check t
  | .fault _ => false
  | .refused _ => false

/-- Whether a step answers `s` with the error recorded and nothing else changed. -/
def faults (s : State) (e : FatalError) : Bool := after (step s) fun t => t == { s with run := .faulted e }

/-! ## Decoding: the rows of 30_encoding.md rule R66, bit by bit -/

theorem test_decode_halt : decode [0b00000001] = .ok (.halt, []) := by decide
theorem test_decode_prn : decode [0b01000111, 0b00000101] = .ok (.prn 5, []) := by decide
/-- The source's own example, 95_test_vectors.md S7. -/
theorem test_decode_ldi : decode [0b10000010, 0b00000000, 0b00001000] = .ok (.ldi 0 8, []) := by decide
theorem test_decode_add : decode [0b10100000, 0b00000001, 0b00000010] = .ok (.add 1 2, []) := by decide
theorem test_decode_mul : decode [0b10100010, 0b00000001, 0b00000010] = .ok (.mul 1 2, []) := by decide
theorem test_decode_push : decode [0b01000101, 0b00000111] = .ok (.push 7, []) := by decide
theorem test_decode_pop : decode [0b01000110, 0b00000111] = .ok (.pop 7, []) := by decide
theorem test_decode_call : decode [0b01010000, 0b00000011] = .ok (.call 3, []) := by decide
theorem test_decode_ret : decode [0b00010001, 0b11111111] = .ok (.ret, [0b11111111]) := by decide
theorem test_decode_cmp : decode [0b10100111, 0b00000001, 0b00000010] = .ok (.cmp 1 2, []) := by decide
theorem test_decode_jeq : decode [0b01010101, 0b00000110] = .ok (.jeq 6, []) := by decide
theorem test_decode_jne : decode [0b01010110, 0b00000110] = .ok (.jne 6, []) := by decide
theorem test_decode_jmp : decode [0b01010100, 0b00000110] = .ok (.jmp 6, []) := by decide
/-- V1 to V4 and 0xFF (rule R68): one bit away from an opcode is no opcode. -/
theorem test_decode_invalid :
    [0x00, 0x02, 0xA1, 0x83, 0xFF].all (fun b : Byte => decode [b, 0, 1] == .error (.invalidOpcode b)) = true := by decide
theorem test_decode_truncated : decode [0b10000010, 0b00000000] = .error .truncated := by decide
/-- The word of LDI R3,255 as spec/opcode_table.json numbers its bits: the opcode byte is the low one. -/
theorem test_table_word_ldi : decodeTableWord 24 0xFF0382 = some (.ldi 3 255) := by decide
/-- A row of 8 bits: what stands above them is not looked at. -/
theorem test_table_word_halt : decodeTableWord 8 0x4701 = some .halt := by decide

/-! ## Well-formedness: each register operand is refused when it is 8 or more (rule R63) -/

theorem test_wf_refuses_prn : (Instr.prn 8).wf = false := by decide
theorem test_wf_refuses_ldi : (Instr.ldi 8 0).wf = false := by decide
theorem test_wf_refuses_add : (Instr.add 8 0).wf = false ∧ (Instr.add 0 8).wf = false := by decide
theorem test_wf_refuses_mul : (Instr.mul 8 0).wf = false ∧ (Instr.mul 0 8).wf = false := by decide
theorem test_wf_refuses_push : (Instr.push 8).wf = false := by decide
theorem test_wf_refuses_pop : (Instr.pop 255).wf = false := by decide
theorem test_wf_refuses_call : (Instr.call 8).wf = false := by decide
theorem test_wf_refuses_cmp : (Instr.cmp 8 0).wf = false ∧ (Instr.cmp 0 8).wf = false := by decide
theorem test_wf_refuses_jeq : (Instr.jeq 8).wf = false := by decide
theorem test_wf_refuses_jne : (Instr.jne 8).wf = false := by decide
theorem test_wf_refuses_jmp : (Instr.jmp 8).wf = false := by decide
/-- Register 7 and any immediate are legal (rules R63, R64). -/
theorem test_wf_accepts : (Instr.ldi 7 255).wf = true ∧ (Instr.cmp 7 7).wf = true := by decide

/-! ## One step each: the vectors of 95_test_vectors.md -/

/-- V9. -/
theorem test_halt_at_255 : after (step (machine 255 [0x01] [] 0)) (fun t => t.run == .halted && t.pc == 255) = true := by decide
/-- V23. -/
theorem test_prn_255 : after (step (machine 0x10 [0x47, 0x00] [(0, 255)] 0)) (fun t => t.out == [255] && t.pc == 0x12) = true := by decide
/-- V8. -/
theorem test_prn_at_254_prints_nothing :
    faults (machine 254 [0x47, 0x00] [(0, 9)] 0) (.addressError .nextPc 256) = true := by decide
/-- V14 and V32. -/
theorem test_ldi_255 :
    after (step (machine 0x10 [0x82, 0x00, 0xFF] [] 0x04)) (fun t => t.readReg 0 == 255 && t.fl == 0x04 && t.pc == 0x13) = true := by decide
/-- V7. -/
theorem test_ldi_at_253 : faults (machine 253 [0x82, 0x00, 0x05] [(0, 1)] 0) (.addressError .nextPc 256) = true := by decide
/-- V42. -/
theorem test_add_wraps :
    after (step (machine 0x10 [0xA0, 0x00, 0x01] [(0, 255), (1, 255)] 0)) (fun t => t.readReg 0 == 254 && t.readReg 1 == 255) = true := by decide
/-- V43. -/
theorem test_add_register_to_itself :
    after (step (machine 0x10 [0xA0, 0x03, 0x03] [(3, 200)] 0)) (fun t => t.readReg 3 == 144) = true := by decide
/-- V47. -/
theorem test_mul_wraps :
    after (step (machine 0x10 [0xA2, 0x00, 0x01] [(0, 255), (1, 255)] 0)) (fun t => t.readReg 0 == 1) = true := by decide
/-- V50. -/
theorem test_mul_200_by_3 :
    after (step (machine 0x10 [0xA2, 0x00, 0x01] [(0, 200), (1, 3)] 0)) (fun t => t.readReg 0 == 88 && t.readReg 1 == 3) = true := by decide
/-- V52. -/
theorem test_cmp_is_unsigned :
    after (step (machine 0x10 [0xA7, 0x00, 0x01] [(0, 255), (1, 0)] 0)) (fun t => t.fl == 0x02) = true := by decide
/-- V55. -/
theorem test_cmp_replaces :
    after (step (machine 0x10 [0xA7, 0x00, 0x01] [(0, 9), (1, 2)] 0x04)) (fun t => t.fl == 0x02 && t.readReg 0 == 9) = true := by decide
/-- V64. -/
theorem test_push_of_the_stack_pointer :
    after (step (machine 0x10 [0x45, 0x07] [(7, 0x80)] 0)) (fun t => t.sp == 0x7F && t.readMem 0x7F == 0x7F) = true := by decide
/-- V62. -/
theorem test_push_at_0 : faults (machine 0x10 [0x45, 0x00] [(7, 0)] 0) (.addressError .stack (-1)) = true := by decide
/-- V68, its loaded byte 0x20 standing at 0x12. -/
theorem test_pop_into_the_stack_pointer :
    after (step (machine 0x10 [0x46, 0x07, 0x20] [(7, 0x12)] 0)) (fun t => t.sp == 0x21 && t.readMem 0x12 == 0x20) = true := by decide
/-- V69, its loaded byte 255 standing at 0x12. -/
theorem test_pop_255_into_the_stack_pointer :
    faults (machine 0x10 [0x46, 0x07, 0xFF] [(7, 0x12)] 0) (.addressError .stack 256) = true := by decide
/-- V84. -/
theorem test_call_of_the_stack_pointer :
    after (step (machine 0x10 [0x50, 0x07] [(7, 0x80)] 0)) (fun t => t.sp == 0x7F && t.readMem 0x7F == 0x12 && t.pc == 0x7F) = true := by decide
/-- V82. -/
theorem test_call_at_254 : faults (machine 254 [0x50, 0x01] [(7, 0x80)] 0) (.addressError .returnAddress 256) = true := by decide
/-- V85, its loaded byte 8 standing at 0x11. -/
theorem test_ret : after (step (machine 0x10 [0x11, 0x08] [(7, 0x11)] 0)) (fun t => t.pc == 8 && t.sp == 0x12) = true := by decide
/-- V86. -/
theorem test_ret_at_sp_255 : faults (machine 0x10 [0x11] [(7, 255)] 0) (.addressError .stack 256) = true := by decide
/-- V94. -/
theorem test_jeq_taken_at_254 : after (step (machine 254 [0x55, 0x02] [(2, 0x30)] 0x01)) (fun t => t.pc == 0x30) = true := by decide
/-- V95. -/
theorem test_jeq_untaken_at_254 : faults (machine 254 [0x55, 0x02] [(2, 0x30)] 0x00) (.addressError .nextPc 256) = true := by decide
/-- V91. -/
theorem test_jne_untaken : after (step (machine 0x10 [0x56, 0x02] [(2, 0x30)] 0x01)) (fun t => t.pc == 0x12) = true := by decide
/-- V93. -/
theorem test_jne_before_any_cmp : after (step (machine 0x10 [0x56, 0x02] [(2, 0x30)] 0x00)) (fun t => t.pc == 0x30) = true := by decide
/-- V10. -/
theorem test_jmp_at_254 : after (step (machine 254 [0x54, 0x00] [(0, 0x40)] 0)) (fun t => t.pc == 0x40) = true := by decide
/-- V96: a jump that is not taken is checked all the same. -/
theorem test_jeq_bad_register : faults (machine 0x10 [0x55, 0x0A] [(7, 0x80)] 0x04) (.registerIndexError 10) = true := by decide
/-- V3. -/
theorem test_invalid_opcode : faults (machine 0x10 [0xA1, 0x00, 0x01] [] 0) (.invalidOpcode 0xA1 0x10) = true := by decide
/-- V5. -/
theorem test_operand_above_255 : faults (machine 255 [0x47] [] 0) (.addressError .operand 256) = true := by decide
/-- V13. -/
theorem test_opa_is_checked_first : faults (machine 0x10 [0xA0, 0x09, 0x0A] [] 0) (.registerIndexError 9) = true := by decide
/-- V15. -/
theorem test_register_check_before_stack_check : faults (machine 254 [0x45, 0x09] [] 0) (.registerIndexError 9) = true := by decide
/-- V16. -/
theorem test_stack_check_before_next_pc : faults (machine 254 [0x45, 0x00] [] 0) (.addressError .stack (-1)) = true := by decide
/-- S7's first step, the image placed by `withFetchWord` (LDI R0,8 as a table word). -/
theorem test_fetch_word : after (step (State.reset.withFetchWord 24 0x080082)) (fun t => t.readReg 0 == 8 && t.pc == 3) = true := by decide

/-! ## The host's side -/

/-- S9, its first three instruction lines, a comment and a blank line between them. -/
theorem test_program_file :
    parseLines 0 [['#', '1'], ['1', '0', '0', '0', '0', '0', '1', '0', ' ', '#'], [],
      ['0', '0', '0', '0', '0', '0', '0', '0'], ['0', '0', '0', '0', '1', '0', '0', '0']] = .ok [0x82, 0x00, 0x08] := by decide
/-- Rule R178 and D24: a bad character and a short line. -/
theorem test_malformed_lines :
    launch (some [['1', '0', '2', '0', '0', '0', '0', '0']]) = .error .parseError ∧
      launch (some [['1', '0', '1']]) = .error .parseError := by decide
/-- Rules R31, R96: the rendering of 8, 0 and 255. -/
theorem test_rendering : renderOutput [8, 0, 255] = ['8', '\n', '0', '\n', '2', '5', '5', '\n'] := by decide

/-! ## Witnesses: for each obligation with hypotheses, a state and operands that meet all of them; where it has
several clauses, one for each clause at a boundary of its range -/

theorem witness_BytesDecodeToAnInstructionExactlyWhenTheyAreItsEncoding :
    decode [0x82, 0x07, 0xFF, 0x01] = .ok (.ldi 7 255, [0x01]) ∧ encode (.ldi 7 255) = [0x82, 0x07, 0xFF] := by decide

theorem witness_OpcodesAreSelectedByExactValue :
    decode [0xA0, 0, 1] = .ok (.add 0 1, []) ∧ decode [0xA2, 0, 1] = .ok (.mul 0 1, []) := by decide

theorem witness_EveryOtherOpcodeByteIsAnInvalidOpcode :
    (0x00 : Byte) ∉ ([0x01, 0x47, 0x82, 0xA0, 0xA2, 0x45, 0x46, 0x50, 0x11, 0xA7, 0x55, 0x56, 0x54] : List Byte) ∧
      State.reset.run = .running ∧ State.reset.readMem State.reset.pc = 0x00 := by decide

theorem witness_AnImageLoadsFromAddressZero :
    (List.replicate 256 (0x01 : Byte)).length ≤ 256 ∧ (List.replicate 257 (0x01 : Byte)).length > 256 :=
  ⟨Nat.le_of_eq List.length_replicate, Nat.lt_of_lt_of_eq (Nat.lt_succ_self 256) List.length_replicate.symm⟩

theorem witness_AProgramFileGivesOneByteForEachBinaryLine :
    ([' ', '1'] : Line).head? ≠ some '0' ∧ ([' ', '1'] : Line).head? ≠ some '1' ∧ 255 ≤ 255 ∧
      [true, false, false, false, false, false, true, false].length = 8 ∧
      parseLines 0 [['0', '0', '0', '0', '0', '0', '0', '1']] = .ok [0x01] := by decide

theorem witness_MalformedProgramFilesDoNotLoad :
    (['1', '0', '1', '0', '1', '0', '1'] : Line).head? = some '1' ∧ (['1', '0', '1', '0', '1', '0', '1'] : Line).length < 8 ∧
      (['0', '0', '0', '0', '0', '0', '0', '2'] : Line)[7]? = some '2' ∧ '2' ≠ '0' ∧ '2' ≠ '1' ∧ 256 > 255 ∧
      parseLines 0 [['1']] = .error .parseError := by decide

/-- The last byte of the instruction at address 255, for one, two and three bytes. -/
theorem witness_AStepExecutesTheInstructionAtThePc :
    let s₁ := machine 255 [0x01] [] 0
    let s₂ := machine 254 [0x47, 0x00] [] 0
    let s₃ := machine 253 [0x82, 0x00, 0x05] [] 0
    s₁.run = .running ∧ s₁.pc.toNat + Instr.halt.length = 256 ∧ s₁.readMem 255 = 0x01 ∧
      s₂.pc.toNat + (Instr.prn 0).length = 256 ∧ s₂.readMem 254 = 0x47 ∧ s₂.readMem 255 = 0x00 ∧
      s₃.pc.toNat + (Instr.ldi 0 5).length = 256 ∧
      (∀ k, k < 3 → s₃.readMem (s₃.pc + BitVec.ofNat 8 k) = (encode (.ldi 0 5)).getD k 0) := by decide

theorem witness_AStepExistsExactlyWhileRunning :
    (State.reset.setRun .halted).run = .halted ∧
      (State.reset.setRun (.faulted (.registerIndexError 8))).run = .faulted (.registerIndexError 8) := by decide

/-- One check failing of each kind, and none failing, at the addresses where they meet. -/
theorem witness_TheFirstFailedCheckDecidesTheStep :
    State.reset.run = .running ∧ failedCheck State.reset = some (.invalidOpcode 0 0) ∧
      failedCheck (machine 254 [0x82, 0x09] [] 0) = some (.addressError .operand 256) ∧
      failedCheck (machine 254 [0x45, 0x09] [] 0) = some (.registerIndexError 9) ∧
      failedCheck (machine 253 [0xA0, 0x07, 0x08] [] 0) = some (.registerIndexError 8) ∧
      failedCheck (machine 254 [0x45, 0x00] [] 0) = some (.addressError .stack (-1)) ∧
      failedCheck (machine 254 [0x50, 0x00] [(7, 1)] 0) = some (.addressError .returnAddress 256) ∧
      failedCheck (machine 254 [0x55, 0x00] [] 0) = some (.addressError .nextPc 256) ∧
      failedCheck (machine 254 [0x55, 0x00] [] 1) = none ∧ failedCheck (machine 253 [0x47, 0x07] [] 0) = none := by decide

theorem witness_AFatalErrorChangesOnlyTheRunStateAndStops :
    ∃ t, step State.reset = .next t ∧ t.run = .faulted (.invalidOpcode 0 0) := ⟨_, rfl, rfl⟩

theorem witness_EveryStepKeepsTheInvariant :
    Inv (machine 0 [0xA7, 0x00, 0x01] [] 0) ∧ ∃ t, step (machine 0 [0xA7, 0x00, 0x01] [] 0) = .next t ∧ t.fl = 0x01 :=
  ⟨⟨by decide, by decide⟩, _, rfl, rfl⟩

/-- For each component an instruction that changes it. -/
theorem witness_EachComponentIsWrittenOnlyByItsInstructions :
    let s := machine 0 [] [(7, 1), (0, 9)] 0
    s.run = .running ∧ after (exec (.push 0) s) (fun t => t.readMem 0 != s.readMem 0 && t.sp != s.sp && t.pc != s.pc) = true ∧
      after (exec (.cmp 0 0) s) (fun t => t.fl != s.fl) = true ∧ after (exec .halt s) (fun t => t.run != s.run) = true ∧
      after (exec (.prn 0) s) (fun t => t.out != s.out) = true := by decide

theorem witness_TheOutputTraceOnlyGrowsAlongARun :
    ∃ t : State, Sys2Proof.core.run 1 (machine 0 [0x47, 0x00] [(0, 8)] 0) = .next t ∧ t.out = [8] := ⟨_, rfl, rfl⟩

/-- A memory that differs outside the cells read: fetch at 253, RET and POP at the stack pointer; and a memory that
differs everywhere for JMP, PUSH and CALL. -/
theorem witness_OnlyFetchAndTheStackReachMemory :
    let s := machine 253 [0x82, 0x00, 0x05] [(7, 254), (0, 9)] 0
    let m : Memory := Memory.set 0 7 s.mem
    (∀ k, k ≤ 2 → s.pc.toNat + k ≤ 255 → m.get (s.pc.toNat + k) = s.mem.get (s.pc.toNat + k)) ∧
      m ≠ s.mem ∧ m.get s.sp.toNat = s.mem.get s.sp.toNat ∧ after (exec .ret s) (fun _ => true) = true ∧
      after (exec (.pop 0) s) (fun _ => true) = true ∧ after (exec (.push 0) s) (fun _ => true) = true ∧
      after (exec (.call 0) s) (fun _ => true) = true ∧ after (exec (.jmp 0) s) (fun _ => true) = true := by decide

theorem witness_HaltStopsAtEveryAddress :
    (machine 255 [0x01] [] 0).run = .running ∧ (machine 255 [0x01] [] 0).readMem 255 = 0x01 := by decide

/-- The highest `pc` at which a 2-byte instruction falls through is 253. -/
theorem witness_PrnAppendsTheRegisterToTheOutput :
    (7 : Byte).toNat = (7 : Reg).val ∧ (machine 253 [] [] 0).pc.toNat + 2 ≤ 255 := by decide

/-- The highest `pc` at which a 3-byte instruction falls through is 252. -/
theorem witness_LdiLoadsTheWholeImmediateByte :
    (7 : Byte).toNat = (7 : Reg).val ∧ (machine 252 [] [] 0).pc.toNat + 3 ≤ 255 := by decide

theorem witness_AddAndMulKeepTheResultModulo256 :
    (0 : Byte).toNat = (0 : Reg).val ∧ (7 : Byte).toNat = (7 : Reg).val ∧ (machine 252 [] [] 0).pc.toNat + 3 ≤ 255 := by decide

theorem witness_CmpSetsExactlyTheFlagOfTheRelation :
    (0 : Byte).toNat = (0 : Reg).val ∧ (7 : Byte).toNat = (7 : Reg).val ∧ (machine 252 [] [] 4).pc.toNat + 3 ≤ 255 := by decide

/-- At the lowest stack pointer a push may have, for an ordinary register and for the stack pointer. -/
theorem witness_PushStoresTheRegisterBelowTheStackPointer :
    let s := machine 253 [] [(7, 1)] 0
    s.mem.wf = true ∧ (0 : Byte).toNat = (0 : Reg).val ∧ (7 : Byte).toNat = config.spIndex.val ∧ s.sp ≠ 0 ∧
      s.pc.toNat + 2 ≤ 255 := by decide

/-- Into an ordinary register at `sp = 254`, and into the stack pointer at `sp = 255` where the loaded byte is 254. -/
theorem witness_PopLoadsTheRegisterAndIncrementsTheStackPointer :
    let s := machine 253 [] [(7, 254)] 0
    let u := (machine 253 [] [(7, 255)] 0).writeMem 255 254
    (0 : Byte).toNat = (0 : Reg).val ∧ (0 : Reg) ≠ config.spIndex ∧ s.sp ≠ 255 ∧ s.pc.toNat + 2 ≤ 255 ∧
      (7 : Byte).toNat = config.spIndex.val ∧ u.readMem u.sp ≠ 255 ∧ u.pc.toNat + 2 ≤ 255 := by decide

theorem witness_CallPushesTheReturnAddressAndJumps :
    let s := machine 253 [] [(7, 1)] 0
    s.mem.wf = true ∧ (0 : Byte).toNat = (0 : Reg).val ∧ (7 : Byte).toNat = config.spIndex.val ∧ s.sp ≠ 0 ∧
      s.pc.toNat + 2 ≤ 255 := by decide

theorem witness_RetPopsTheProgramCounter : (machine 255 [] [(7, 254)] 0).sp ≠ 255 := by decide

theorem witness_JeqAndJneJumpOnComplementaryConditions :
    (7 : Byte).toNat = (7 : Reg).val ∧ (machine 253 [] [] 1).fl.getLsbD 0 = true ∧ (machine 253 [] [] 4).fl.getLsbD 0 = false ∧
      (machine 253 [] [] 1).pc.toNat + 2 ≤ 255 := by decide

theorem witness_JmpJumpsToTheRegister : (7 : Byte).toNat = (7 : Reg).val := by decide

/-- The smallest bad byte, in the first and in the second register operand. -/
theorem witness_ABadRegisterOperandIsARegisterIndexError :
    (Instr.prn 8).regOperands.find? (fun c => decide (c.toNat > 7)) = some 8 ∧
      (Instr.add 7 8).regOperands.find? (fun c => decide (c.toNat > 7)) = some 8 ∧
      (Instr.cmp 9 8).regOperands.find? (fun c => decide (c.toNat > 7)) = some 9 := by decide

theorem witness_AnOperandByteAbove255IsAnAddressError :
    let s := machine 255 [0x54] [] 0
    let u := machine 254 [0x82] [] 0
    s.run = .running ∧ lengthOfOpcode (s.readMem s.pc) = some 2 ∧ s.pc.toNat + 2 > 256 ∧
      u.run = .running ∧ lengthOfOpcode (u.readMem u.pc) = some 3 ∧ u.pc.toNat + 3 > 256 := by decide

theorem witness_TheStackPointerDoesNotWrap :
    (0 : Byte).toNat = (0 : Reg).val ∧ (7 : Byte).toNat = config.spIndex.val ∧ (0 : Reg) ≠ config.spIndex ∧
      (machine 0 [] [(7, 0)] 0).sp = 0 ∧ (machine 0 [] [(7, 255)] 0).sp = 255 ∧
      (machine 0 [255] [(7, 0)] 0).readMem (machine 0 [255] [(7, 0)] 0).sp = 255 := by decide

/-- At 254 for a 2-byte and at 253 for a 3-byte instruction, with both values of the equal flag. -/
theorem witness_TheProgramCounterDoesNotWrap :
    let s := machine 254 [] [(7, 1)] 0
    (0 : Byte).toNat = (0 : Reg).val ∧ (1 : Byte).toNat = (1 : Reg).val ∧ s.pc.toNat + 2 > 255 ∧ s.fl.getLsbD 0 = false ∧
      (machine 254 [] [] 1).fl.getLsbD 0 = true ∧ s.sp ≠ 0 ∧ s.sp ≠ 255 ∧
      (machine 254 [] [(7, 255)] 0).readMem 255 ≠ 255 ∧ (machine 253 [] [] 0).pc.toNat + 3 > 255 := by decide

theorem witness_FrameOfTheRegisterForms :
    let s := machine 0 [] [] 0
    after (exec (.ldi 0 5) s) (fun t => t.isSafe) = true ∧ after (exec (.add 0 5) s) (fun t => t.isSafe) = true ∧
      after (exec (.mul 0 5) s) (fun t => t.isSafe) = true ∧ after (exec (.cmp 0 5) s) (fun t => t.isSafe) = true := by decide

theorem witness_FrameOfTheSystemAndJumpForms :
    let s := machine 0 [] [] 0
    after (exec .halt s) (fun t => t.isSafe) = true ∧ after (exec (.prn 7) s) (fun t => t.isSafe) = true ∧
      after (exec (.jeq 7) s) (fun t => t.isSafe) = true ∧ after (exec (.jne 7) s) (fun t => t.isSafe) = true ∧
      after (exec (.jmp 7) s) (fun t => t.isSafe) = true := by decide

theorem witness_FrameOfTheStackReadingForms :
    let s := machine 0 [] [(7, 254)] 0
    after (exec (.pop 0) s) (fun t => t.isSafe) = true ∧ after (exec (.pop 7) s) (fun t => t.isSafe) = true ∧
      after (exec .ret s) (fun t => t.isSafe) = true := by decide

/-- With the lowest cell stored to, and with the decrement faulting. -/
theorem witness_FrameOfTheStackWritingForms :
    let s := machine 0 [] [(7, 1)] 0
    after (exec (.push 0) s) (fun t => t.isSafe) = true ∧ after (exec (.call 0) s) (fun t => t.isSafe) = true ∧
      spDecrement s.sp = .ok 0 ∧ spDecrement State.reset.sp = .error (.addressError .stack (-1)) ∧
      after (exec (.push 0) State.reset) (fun _ => true) = true := by decide

theorem witness_PushThenPopMovesTheValueAndRestoresTheStackPointer :
    let s := machine 251 [] [(7, 255)] 0
    s.mem.wf = true ∧ (0 : Byte).toNat = (0 : Reg).val ∧ (1 : Byte).toNat = (1 : Reg).val ∧ (0 : Reg) ≠ config.spIndex ∧
      (1 : Reg) ≠ config.spIndex ∧ s.sp ≠ 0 ∧ s.pc.toNat + 4 ≤ 255 := by decide

/-- A called state that has CALL's stack pointer and cell, and another program counter. -/
theorem witness_CallThenReturnResumesAfterTheCall :
    let s := machine 253 [] [(7, 1), (0, 0x20)] 0
    s.mem.wf = true ∧ (0 : Byte).toNat = (0 : Reg).val ∧ s.sp ≠ 0 ∧ s.pc.toNat + 2 ≤ 255 ∧
      after (exec (.call 0) s) (fun t => (t.setPc 0x30).sp == t.sp && (t.setPc 0x30).readMem t.sp == t.readMem t.sp) = true := by decide

/-- At the lowest cells that make the stack pointer push an opcode (PUSH's own), and at the highest `pc`: a two-byte
opcode whose operand is at 255, a three-byte one whose second is above it, and a byte that is no opcode. -/
theorem witness_APushedByteIsFetchedByTheNextStep :
    let s := machine 0x43 [0x45, 0x07, 0x00, 0x03] [(7, 0x46)] 0
    let u := machine 252 [0x45, 0x00, 0x00, 0x09] [(7, 255), (0, 0x47), (1, 0x82), (2, 0xFF)] 0
    s.mem.wf = true ∧ s.run = .running ∧ (7 : Byte).toNat = (7 : Reg).val ∧ s.pc.toNat + 2 ≤ 255 ∧
      s.sp.toNat = s.pc.toNat + 3 ∧
      after (exec (.push 7) s) (fun t => t.readMem t.pc == (encode (.push 3)).getD 0 0 && t.pc == 0x45) = true ∧
      s.readMem 0x46 = (encode (.push 3)).getD 1 0 ∧
      u.mem.wf = true ∧ u.run = .running ∧ (0 : Byte).toNat = (0 : Reg).val ∧ (1 : Byte).toNat = (1 : Reg).val ∧
      (2 : Byte).toNat = (2 : Reg).val ∧ u.pc.toNat + 2 ≤ 255 ∧ u.sp.toNat = u.pc.toNat + 3 ∧
      after (exec (.push 0) u) (fun t => t.readMem t.pc == (encode (.prn 9)).getD 0 0 && t.pc == 254) = true ∧
      u.readMem 255 = (encode (.prn 9)).getD 1 0 ∧
      after (exec (.push 1) u) (fun t => lengthOfOpcode (t.readMem t.pc) == some 3 && t.pc == 254) = true ∧
      after (exec (.push 2) u) (fun t => lengthOfOpcode (t.readMem t.pc) == none) = true := by decide

theorem witness_AJumpAfterACompareFollowsEquality :
    let s := machine 250 [] [(0, 5), (1, 5), (2, 6)] 0
    (0 : Byte).toNat = (0 : Reg).val ∧ (1 : Byte).toNat = (1 : Reg).val ∧ (2 : Byte).toNat = (2 : Reg).val ∧
      s.pc.toNat + 5 ≤ 255 ∧ after (exec (.cmp 0 1) s) (fun _ => true) = true ∧ s.readReg 0 = s.readReg 1 ∧
      after (exec (.cmp 0 2) s) (fun _ => true) = true ∧ s.readReg 0 ≠ s.readReg 2 := by decide

theorem witness_AddingAValueAndItsComplementRestoresTheRegister :
    let s := machine 249 [] [(0, 200), (1, 255), (2, 1)] 0
    (0 : Byte).toNat = (0 : Reg).val ∧ (1 : Byte).toNat = (1 : Reg).val ∧ (2 : Byte).toNat = (2 : Reg).val ∧
      (1 : Reg) ≠ 0 ∧ (2 : Reg) ≠ 0 ∧ (s.readReg 1).toNat + (s.readReg 2).toNat = 256 ∧ s.pc.toNat + 6 ≤ 255 := by decide

/-- V97, at the highest address a JMP can stand at. -/
theorem witness_AJumpToItselfRunsForever :
    let s := machine 254 [0x54, 0x00] [(0, 254)] 0
    s.run = .running ∧ s.pc.toNat + 1 ≤ 255 ∧ s.readMem s.pc = 0x54 ∧ (s.readMem (s.pc + 1)).toNat = (0 : Reg).val ∧
      s.readReg 0 = s.pc := by decide

end Sys2Proof.Tests
end

section
/-! What an instruction can do, both ways: when it completes, and what it raises where a check fails. -/

namespace Sys2Proof.Machine

variable {s t : State} {i : Instr}

/-! ## Chains of checks -/

/-- An instruction whose next check passes goes on with what the check answers. -/
theorem commit_bind_ok {α : Type} {x : Except FatalError α} {f : α → Except FatalError State} {a : α}
    (h : x = .ok a) : commit s (x >>= f) = commit s (f a) := by
  rw [h]; rfl

/-- An instruction whose next check fails raises the check's error in the state it started from. -/
theorem commit_bind_error {α : Type} {x : Except FatalError α} {f : α → Except FatalError State} {e : FatalError}
    (h : x = .error e) : commit s (x >>= f) = raise e s := by
  rw [h]; rfl

/-- An instruction that raises an error answers the state with the error recorded and nothing else changed. -/
theorem faultedWith_of_exec_eq_raise {e : FatalError} (h : exec i s = raise e s) :
    ∃ t, exec i s = .next t ∧ FaultedWith e s t :=
  ⟨_, h, rfl⟩

/-! ## Completion -/

/-- `Completes s i t`: the instruction `i` passes checks 3 to 5 in `s`, and `t` is `s` with its effects
(40_execution_cycle.md rules R85 to R88). `exec_next_cases` and `Completes.exec` tie it to `exec`. -/
inductive Completes (s : State) : Instr → State → Prop where
  | halt : Completes s .halt (s.setRun .halted)
  | prn {reg p : Byte} {r : Reg} (hr : reg.toNat = r.val) (hp : p.toNat = s.pc.toNat + 2) :
      Completes s (.prn reg) ((s.output (s.readReg r)).setPc p)
  | ldi {reg val p : Byte} {r : Reg} (hr : reg.toNat = r.val) (hp : p.toNat = s.pc.toNat + 3) :
      Completes s (.ldi reg val) ((s.setReg r val).setPc p)
  | add {regA regB p : Byte} {a b : Reg} (ha : regA.toNat = a.val) (hb : regB.toNat = b.val)
      (hp : p.toNat = s.pc.toNat + 3) : Completes s (.add regA regB) ((alu .add a b s).setPc p)
  | mul {regA regB p : Byte} {a b : Reg} (ha : regA.toNat = a.val) (hb : regB.toNat = b.val)
      (hp : p.toNat = s.pc.toNat + 3) : Completes s (.mul regA regB) ((alu .mult a b s).setPc p)
  | cmp {regA regB p : Byte} {a b : Reg} (ha : regA.toNat = a.val) (hb : regB.toNat = b.val)
      (hp : p.toNat = s.pc.toNat + 3) : Completes s (.cmp regA regB) ((alu .cmp a b s).setPc p)
  | push {reg a p : Byte} {r : Reg} (hr : reg.toNat = r.val) (ha : spDecrement s.sp = .ok a)
      (hp : p.toNat = s.pc.toNat + 2) : Completes s (.push reg) ((pushAt s a ((s.setSp a).readReg r)).setPc p)
  | pop {reg a p : Byte} {r : Reg} (hr : reg.toNat = r.val) (ha : spIncrement (popBase s r) = .ok a)
      (hp : p.toNat = s.pc.toNat + 2) : Completes s (.pop reg) (((s.setReg r (s.readMem s.sp)).setSp a).setPc p)
  | call {reg a p : Byte} {r : Reg} (hr : reg.toNat = r.val) (ha : spDecrement s.sp = .ok a)
      (hp : p.toNat = s.pc.toNat + 2) : Completes s (.call reg) ((pushAt s a p).setPc ((s.setSp a).readReg r))
  | ret {a : Byte} (ha : spIncrement s.sp = .ok a) : Completes s .ret ((s.setSp a).setPc (s.readMem s.sp))
  | jeqTaken {reg : Byte} {r : Reg} (hr : reg.toNat = r.val) (he : flagE s.fl = true) :
      Completes s (.jeq reg) (s.setPc (s.readReg r))
  | jeqUntaken {reg p : Byte} {r : Reg} (hr : reg.toNat = r.val) (he : flagE s.fl = false)
      (hp : p.toNat = s.pc.toNat + 2) : Completes s (.jeq reg) (s.setPc p)
  | jneTaken {reg : Byte} {r : Reg} (hr : reg.toNat = r.val) (he : flagE s.fl = false) :
      Completes s (.jne reg) (s.setPc (s.readReg r))
  | jneUntaken {reg p : Byte} {r : Reg} (hr : reg.toNat = r.val) (he : flagE s.fl = true)
      (hp : p.toNat = s.pc.toNat + 2) : Completes s (.jne reg) (s.setPc p)
  | jmp {reg : Byte} {r : Reg} (hr : reg.toNat = r.val) : Completes s (.jmp reg) (s.setPc (s.readReg r))

/-- An instruction completes, or a fatal error ends it. -/
theorem exec_next_cases (h : exec i s = .next t) : Completes s i t ∨ RaisedIn s t := by
  cases i with
  | halt => exact .inl (execHalt_next h ▸ .halt)
  | prn reg => exact (execPrn_next h).imp_left fun ⟨_, _, hr, hp, ht⟩ => ht ▸ .prn hr hp
  | ldi reg val => exact (execLdi_next h).imp_left fun ⟨_, _, hr, hp, ht⟩ => ht ▸ .ldi hr hp
  | add regA regB => exact (aluInstr_next h).imp_left fun ⟨_, _, _, ha, hb, hp, ht⟩ => ht ▸ .add ha hb hp
  | mul regA regB => exact (aluInstr_next h).imp_left fun ⟨_, _, _, ha, hb, hp, ht⟩ => ht ▸ .mul ha hb hp
  | cmp regA regB => exact (aluInstr_next h).imp_left fun ⟨_, _, _, ha, hb, hp, ht⟩ => ht ▸ .cmp ha hb hp
  | push reg => exact (execPush_next h).imp_left fun ⟨_, _, _, hr, ha, hp, ht⟩ => ht ▸ .push hr ha hp
  | pop reg => exact (execPop_next h).imp_left fun ⟨_, _, _, hr, ha, hp, ht⟩ => ht ▸ .pop hr ha hp
  | call reg => exact (execCall_next h).imp_left fun ⟨_, _, _, hr, ha, hp, ht⟩ => ht ▸ .call hr ha hp
  | ret => exact (execRet_next h).imp_left fun ⟨_, ha, ht⟩ => ht ▸ .ret ha
  | jeq reg =>
    rcases jumpIf_next h with ⟨_, hr, he, ht⟩ | ⟨_, _, hr, he, hp, ht⟩ | hraised
    · exact .inl (ht ▸ .jeqTaken hr he)
    · exact .inl (ht ▸ .jeqUntaken hr he hp)
    · exact .inr hraised
  | jne reg =>
    rcases jumpIf_next (cond := fun fl => !flagE fl) h with ⟨_, hr, he, ht⟩ | ⟨_, _, hr, he, hp, ht⟩ | hraised
    · exact .inl (ht ▸ .jneTaken hr (by simpa using he))
    · exact .inl (ht ▸ .jneUntaken hr (by simpa using he) hp)
    · exact .inr hraised
  | jmp reg => exact (execJmp_next h).imp_left fun ⟨_, hr, ht⟩ => ht ▸ .jmp hr

/-- What ALU instructions answer where their operands name registers and the following address exists. -/
theorem aluInstr_eq_next {op : AluOp} {regA regB p : Byte} {a b : Reg} (ha : regA.toNat = a.val)
    (hb : regB.toNat = b.val) (hp : p.toNat = s.pc.toNat + 3) :
    aluInstr op regA regB s = .next ((alu op a b s).setPc p) :=
  (commit_bind_ok (regOperand_eq_ok.2 ha)).trans <| (commit_bind_ok (regOperand_eq_ok.2 hb)).trans <|
    commit_bind_ok (nextPc_eq_ok.2 hp)

/-- A conditional jump to a register, where its condition holds. -/
theorem jumpIf_taken {cond : Byte → Bool} {reg : Byte} {r : Reg} (hr : reg.toNat = r.val) (hc : cond s.fl = true) :
    jumpIf cond reg s = .next (s.setPc (s.readReg r)) := by
  refine (commit_bind_ok (regOperand_eq_ok.2 hr)).trans ?_
  rw [if_pos hc]; rfl

/-- A conditional jump whose condition does not hold asks for the following address. -/
theorem jumpIf_untaken {cond : Byte → Bool} {reg : Byte} {r : Reg} (hr : reg.toNat = r.val) (hc : cond s.fl = false) :
    jumpIf cond reg s = commit s (nextPc s 2 >>= fun p => pure (s.setPc p)) := by
  refine (commit_bind_ok (regOperand_eq_ok.2 hr)).trans ?_
  rw [if_neg (by simp [hc])]

/-- An instruction that completes is answered with its effects. -/
theorem Completes.exec (h : Completes s i t) : exec i s = .next t := by
  cases h with
  | halt => rfl
  | prn hr hp => exact (commit_bind_ok (regOperand_eq_ok.2 hr)).trans (commit_bind_ok (nextPc_eq_ok.2 hp))
  | ldi hr hp => exact (commit_bind_ok (regOperand_eq_ok.2 hr)).trans (commit_bind_ok (nextPc_eq_ok.2 hp))
  | add ha hb hp => exact aluInstr_eq_next ha hb hp
  | mul ha hb hp => exact aluInstr_eq_next ha hb hp
  | cmp ha hb hp => exact aluInstr_eq_next ha hb hp
  | push hr ha hp =>
    exact (commit_bind_ok (regOperand_eq_ok.2 hr)).trans <| (commit_bind_ok ha).trans <|
      commit_bind_ok (nextPc_eq_ok.2 hp)
  | pop hr ha hp =>
    exact (commit_bind_ok (regOperand_eq_ok.2 hr)).trans <| (commit_bind_ok ha).trans <|
      commit_bind_ok (nextPc_eq_ok.2 hp)
  | call hr ha hp =>
    exact (commit_bind_ok (regOperand_eq_ok.2 hr)).trans <| (commit_bind_ok ha).trans <|
      commit_bind_ok (followingPc_eq_ok.2 hp)
  | ret ha => exact commit_bind_ok ha
  | jeqTaken hr he => exact jumpIf_taken hr he
  | jeqUntaken hr he hp => exact (jumpIf_untaken hr he).trans (commit_bind_ok (nextPc_eq_ok.2 hp))
  | jneTaken hr he => exact jumpIf_taken (cond := fun fl => !flagE fl) hr (by simpa using he)
  | jneUntaken hr he hp =>
    exact (jumpIf_untaken (cond := fun fl => !flagE fl) hr (by simpa using he)).trans
      (commit_bind_ok (nextPc_eq_ok.2 hp))
  | jmp hr => exact commit_bind_ok (regOperand_eq_ok.2 hr)

/-- HALT stops the machine where it stands; every other completed instruction leaves the run state alone. -/
theorem Completes.run_cases (h : Completes s i t) :
    (i = .halt ∧ t = s.setRun .halted) ∨ (i ≠ .halt ∧ t.run = s.run) := by
  cases h with
  | halt => exact .inl ⟨rfl, rfl⟩
  | _ => exact .inr ⟨by simp, by simp⟩

/-! ## What each component of the state can become, a fatal error changing the run state alone -/

/-- Memory is kept, or a PUSH or CALL has written the one cell below the stack pointer (10_state.md rule R20). -/
theorem exec_mem_cases (h : exec i s = .next t) :
    t.mem = s.mem ∨ (∃ b, i = .push b ∨ i = .call b) ∧
      ∃ a v : Byte, spDecrement s.sp = .ok a ∧ t.mem = Memory.set a.toNat v s.mem := by
  obtain hc | ⟨e, rfl⟩ := exec_next_cases h
  · cases hc with
    | push hr ha hp => exact .inr ⟨⟨_, .inl rfl⟩, _, _, ha, rfl⟩
    | call hr ha hp => exact .inr ⟨⟨_, .inr rfl⟩, _, _, ha, rfl⟩
    | _ => exact .inl rfl
  · exact .inl rfl

/-- The flags are kept, or a CMP has written a comparison of two bytes. -/
theorem exec_fl_cases (h : exec i s = .next t) :
    t.fl = s.fl ∨ (∃ b c, i = .cmp b c) ∧ ∃ v w : Byte, t.fl = compareFlags v w := by
  obtain hc | ⟨e, rfl⟩ := exec_next_cases h
  · cases hc with
    | cmp ha hb hp => exact .inr ⟨⟨_, _, rfl⟩, _, _, rfl⟩
    | _ => exact .inl rfl
  · exact .inl rfl

/-- The output is kept, or a PRN has appended one value. -/
theorem exec_out_cases (h : exec i s = .next t) :
    t.out = s.out ∨ (∃ b, i = .prn b) ∧ ∃ v, t.out = s.out ++ [v] := by
  obtain hc | ⟨e, rfl⟩ := exec_next_cases h
  · cases hc with
    | prn hr hp => exact .inr ⟨⟨_, rfl⟩, _, rfl⟩
    | _ => exact .inl rfl
  · exact .inl rfl

/-- The numbers of the registers an instruction may write (10_state.md rule R20, the rows of `x` and `sp`);
`exec_sameRegsBut` ties the list to `exec`. -/
def writtenRegs : Instr → List Nat
  | .ldi reg _ => [reg.toNat]
  | .add regA _ => [regA.toNat]
  | .mul regA _ => [regA.toNat]
  | .pop reg => [reg.toNat, config.spIndex.val]
  | .push _ => [config.spIndex.val]
  | .call _ => [config.spIndex.val]
  | .ret => [config.spIndex.val]
  | .halt => []
  | .prn _ => []
  | .cmp _ _ => []
  | .jeq _ => []
  | .jne _ => []
  | .jmp _ => []

theorem sameRegsBut_setReg (s : State) {ns : List Nat} {r : Reg} (v : Byte) (hr : r.val ∈ ns) :
    SameRegsBut ns s (s.setReg r v) :=
  fun _ hr' => readReg_setReg_other s r v fun h => hr' (h ▸ hr)

theorem sameRegsBut_setSp (s : State) {ns : List Nat} (v : Byte) (h : config.spIndex.val ∈ ns) :
    SameRegsBut ns s (s.setSp v) :=
  sameRegsBut_setReg s v h

theorem SameRegsBut.trans {ns : List Nat} {u : State} (h : SameRegsBut ns s t) (h' : SameRegsBut ns t u) :
    SameRegsBut ns s u :=
  fun r hr => (h' r hr).trans (h r hr)

/-- An instruction keeps every register that is not among its written ones. -/
theorem exec_sameRegsBut (h : exec i s = .next t) : SameRegsBut (writtenRegs i) s t := by
  obtain hc | ⟨e, rfl⟩ := exec_next_cases h
  · cases hc with
    | ldi hr hp => exact sameRegsBut_setReg s _ (by simp [writtenRegs, hr])
    | add ha hb hp => exact sameRegsBut_setReg s _ (by simp [writtenRegs, ha])
    | mul ha hb hp => exact sameRegsBut_setReg s _ (by simp [writtenRegs, ha])
    | pop hr ha hp =>
      exact (sameRegsBut_setReg s _ (by simp [writtenRegs, hr])).trans (sameRegsBut_setSp _ _ (by simp [writtenRegs]))
    | push hr ha hp => exact sameRegsBut_setSp s _ (by simp [writtenRegs])
    | call hr ha hp => exact sameRegsBut_setSp s _ (by simp [writtenRegs])
    | ret ha => exact sameRegsBut_setSp s _ (by simp [writtenRegs])
    | _ => exact fun _ _ => rfl
  · exact fun _ _ => rfl

theorem sameMemory_of_mem_eq (h : t.mem = s.mem) : SameMemory s t :=
  fun a => by rw [State.readMem, State.readMem, h]

/-- An instruction that is neither a PUSH nor a CALL keeps every byte of memory. -/
theorem exec_sameMemory (hi : ∀ b, i ≠ .push b ∧ i ≠ .call b) (h : exec i s = .next t) : SameMemory s t := by
  obtain hm | ⟨⟨b, hb⟩, -⟩ := exec_mem_cases h
  · exact sameMemory_of_mem_eq hm
  · exact absurd hb (not_or.2 (hi b))

/-- An instruction that is no CMP keeps the flags. -/
theorem exec_fl_eq (hi : ∀ b c, i ≠ .cmp b c) (h : exec i s = .next t) : t.fl = s.fl := by
  obtain hf | ⟨⟨b, c, hb⟩, -⟩ := exec_fl_cases h
  · exact hf
  · exact absurd hb (hi b c)

/-- An instruction that is no PRN keeps the output. -/
theorem exec_out_eq (hi : ∀ b, i ≠ .prn b) (h : exec i s = .next t) : t.out = s.out := by
  obtain ho | ⟨⟨b, hb⟩, -⟩ := exec_out_cases h
  · exact ho
  · exact absurd hb (hi b)

end Sys2Proof.Machine
end

section
/-! What every step keeps: the invariant, the written-by column of the state table, the growing output. -/

namespace Sys2Proof.Machine

variable {s t : State} {i : Instr}

/-! ## The invariant -/

theorem flagsLegal_compareFlags (v w : Byte) : flagsLegal (compareFlags v w) = true := by
  obtain ⟨-, h⟩ | ⟨-, h⟩ | ⟨-, h⟩ := compareFlags_cases v w <;> rw [h] <;> rfl

/-- A recorded fatal error keeps the invariant, which does not speak of the run state. -/
theorem Inv.of_raisedIn (hs : Inv s) (h : RaisedIn s t) : Inv t := by
  obtain ⟨e, rfl⟩ := h
  exact ⟨hs.memory, hs.flags⟩

/-- Memory is written through `Memory.set` alone and the flags through `compareFlags` alone, which keep them legal. -/
theorem Inv.of_exec (hs : Inv s) (h : exec i s = .next t) : Inv t where
  memory := by
    obtain hm | ⟨-, a, v, -, hm⟩ := exec_mem_cases h
    · rw [hm]; exact hs.memory
    · rw [hm]; exact set_wf v (by omega) hs.memory
  flags := by
    obtain hf | ⟨-, v, w, hf⟩ := exec_fl_cases h
    · rw [hf]; exact hs.flags
    · rw [hf]; exact flagsLegal_compareFlags v w

/-- Settles O16: a step runs an instruction or records an error, and both keep the invariant. -/
theorem everyStepKeepsTheInvariant : Obligations.EveryStepKeepsTheInvariant := by
  intro s t hs h
  obtain ⟨-, ⟨i, -, hi⟩ | hraised⟩ := step_next_cases h
  · exact hs.of_exec hi
  · exact hs.of_raisedIn hraised

/-! ## When a step exists -/

theorem step_is_next (h : s.run = .running) : ∃ t, step s = .next t := by
  rw [step_running h]
  cases fetch s with
  | ok i => exact exec_is_next i s
  | error e => exact ⟨_, rfl⟩

/-- Settles O13: a next state is answered in RUNNING alone, since no meaning and no fetch stops. -/
theorem aStepExistsExactlyWhileRunning : Obligations.AStepExistsExactlyWhileRunning := by
  intro s
  refine ⟨⟨?_, step_is_next⟩, step_halted, fun e => step_faulted⟩
  rintro ⟨t, ht⟩
  exact (step_next_cases ht).1

/-! ## The state table -/

/-- The instructions whose written registers the state table lists, by the register written (rule R20). -/
theorem mem_writtenRegs {r : Reg} (h : r.val ∈ writtenRegs i) :
    (∃ v b, i = .ldi b v ∨ i = .add b v ∨ i = .mul b v ∨ i = .pop b) ∨
      r = config.spIndex ∧ (i = .ret ∨ ∃ b, i = .push b ∨ i = .call b) := by
  cases i <;> simp_all [writtenRegs, Fin.ext_iff]

/-- The program counter moves only where an instruction other than HALT completes. -/
theorem exec_pc_moved (hrun : s.run = .running) (h : exec i s = .next t) (hpc : t.pc ≠ s.pc) :
    i ≠ .halt ∧ t.run = .running := by
  obtain hc | ⟨e, rfl⟩ := exec_next_cases h
  · obtain ⟨-, rfl⟩ | ⟨hi, ht⟩ := hc.run_cases
    · exact absurd rfl hpc
    · exact ⟨hi, ht.trans hrun⟩
  · exact absurd rfl hpc

/-- The run state changes only by HALT and by a fatal error. -/
theorem exec_run_changed (h : exec i s = .next t) (hr : t.run ≠ s.run) :
    (i = .halt ∧ t.run = .halted) ∨ ∃ e, t.run = .faulted e := by
  obtain hc | ⟨e, rfl⟩ := exec_next_cases h
  · obtain ⟨hi, rfl⟩ | ⟨-, ht⟩ := hc.run_cases
    · exact .inl ⟨hi, rfl⟩
    · exact absurd ht hr
  · exact .inr ⟨e, rfl⟩

/-- Settles O17: each clause is the contrapositive of what one component can become. -/
theorem eachComponentIsWrittenOnlyByItsInstructions : Obligations.EachComponentIsWrittenOnlyByItsInstructions := by
  intro i s t hrun h
  refine ⟨fun hm => ?_, fun r hr => ?_, exec_pc_moved hrun h, fun hf => ?_, exec_run_changed h, fun ho => ?_⟩
  · exact ((exec_mem_cases h).resolve_left fun e => hm (sameMemory_of_mem_eq e)).1
  · exact mem_writtenRegs (Classical.not_not.1 fun hn => hr (exec_sameRegsBut h r hn))
  · exact ((exec_fl_cases h).resolve_left hf).1
  · exact ((exec_out_cases h).resolve_left ho).1

/-! ## The output -/

theorem step_out_prefix (h : step s = .next t) : s.out <+: t.out := by
  obtain ⟨-, ⟨i, -, hi⟩ | ⟨e, rfl⟩⟩ := step_next_cases h
  · obtain ho | ⟨-, v, ho⟩ := exec_out_cases hi
    · rw [ho]
    · rw [ho]; exact List.prefix_append _ _
  · exact List.prefix_refl _

/-- Settles O18, by induction on the number of steps. -/
theorem theOutputTraceOnlyGrowsAlongARun : Obligations.TheOutputTraceOnlyGrowsAlongARun := by
  intro n
  induction n with
  | zero =>
    intro s t h
    cases h
    exact List.prefix_refl _
  | succ n ih =>
    intro s u h
    obtain ⟨t, hst, htu⟩ := run_succ_next h
    exact (step_out_prefix hst).trans (ih t u htu)

/-- The host renders a trace value by value. -/
theorem renderOutput_append (vs ws : List Byte) : renderOutput (vs ++ ws) = renderOutput vs ++ renderOutput ws := by
  induction vs with
  | nil => rfl
  | cons v vs ih => simp [renderOutput, ih]

/-- The model's digits are the library's. -/
theorem digitChar_eq {n : Nat} (h : n < 10) : digitChar n = Nat.digitChar n := by
  interval_cases n <;> rfl

/-- A numeral of at least two digits is the numeral of the tens, then the digit of the units. -/
theorem toDigits_ten {n : Nat} (h : 10 ≤ n) : Nat.toDigits 10 n = Nat.toDigits 10 (n / 10) ++ [digitChar (n % 10)] := by
  rw [Nat.toDigits_of_base_le (by decide) h, digitChar_eq (Nat.mod_lt n (by decide))]

theorem toDigits_lt_ten {n : Nat} (h : n < 10) : Nat.toDigits 10 n = [digitChar n] := by
  rw [Nat.toDigits_of_lt_base h, digitChar_eq h]

/-- The numeral of a value is its base-10 digits: one, two or three of them. -/
theorem decimalNumeral_eq_toDigits (v : Byte) : decimalNumeral v = Nat.toDigits 10 v.toNat := by
  have hv : v.toNat < 256 := v.isLt
  unfold decimalNumeral
  dsimp only
  split
  · rw [toDigits_lt_ten (by omega)]
  · split
    · rw [toDigits_ten (by omega), toDigits_lt_ten (by omega)]; rfl
    · rw [toDigits_ten (by omega), toDigits_ten (by omega), toDigits_lt_ten (by omega), Nat.div_div_eq_div_mul]; rfl

/-- Settles O11: rendering distributes over appending, and a numeral is the library's digits. -/
theorem eachOutputValueIsRenderedAsADecimalNumeralAndANewline :
    Obligations.EachOutputValueIsRenderedAsADecimalNumeralAndANewline := by
  refine ⟨rfl, fun out v => ?_, decimalNumeral_eq_toDigits⟩
  rw [renderOutput_append, List.append_assoc]
  rfl

end Sys2Proof.Machine
end

section
/-! The register forms, and where the stack pointer and the program counter would leave the address space. -/

namespace Sys2Proof.Machine

variable {s t : State} {i : Instr}

/-! ## CMP and the frame of the register forms -/

theorem getLsbD_eq_false_of_lt {v : Byte} {n k : Nat} (hv : v.toNat < 2 ^ n) (hk : n ≤ k) : v.getLsbD k = false :=
  Nat.testBit_lt_two_pow (Nat.lt_of_lt_of_le hv (Nat.pow_le_pow_right (by decide) hk))

/-- Bits 0, 1 and 2 of what CMP writes are the three relations, and no other bit is set (rule R108). -/
theorem compareFlags_bits (a b : Byte) :
    ((compareFlags a b).getLsbD 0 = true ↔ a.toNat = b.toNat) ∧
    ((compareFlags a b).getLsbD 1 = true ↔ a.toNat > b.toNat) ∧
    ((compareFlags a b).getLsbD 2 = true ↔ a.toNat < b.toNat) ∧
    ∀ k, k ≥ 3 → (compareFlags a b).getLsbD k = false := by
  obtain ⟨h, hf⟩ | ⟨h, hf⟩ | ⟨h, hf⟩ := compareFlags_cases a b <;> rw [hf]
  · exact ⟨by simp [h], by simp [h], by simp [h], fun k => getLsbD_eq_false_of_lt (by decide)⟩
  · exact ⟨by simp; omega, by simpa using h, by simp; omega, fun k => getLsbD_eq_false_of_lt (by decide)⟩
  · exact ⟨by simp; omega, by simp; omega, by simpa using h, fun k => getLsbD_eq_false_of_lt (by decide)⟩

/-- Where the address `len` further on exists, a byte holds it. -/
theorem exists_following {len : Nat} (h : s.pc.toNat + len ≤ 255) : ∃ p : Byte, p.toNat = s.pc.toNat + len :=
  ⟨trunc8 (s.pc.toNat + len), by rw [trunc8_toNat]; omega⟩

/-- Settles O24: the CMP completes, and its flags are `compareFlags` of the two registers. -/
theorem cmpSetsExactlyTheFlagOfTheRelation : Obligations.CmpSetsExactlyTheFlagOfTheRelation := by
  intro s ba bb a b ha hb hpc
  obtain ⟨p, hp⟩ := exists_following hpc
  obtain ⟨hE, hG, hL, hrest⟩ := compareFlags_bits (s.readReg a) (s.readReg b)
  exact ⟨_, (Completes.cmp ha hb hp).exec, hE, hG, hL, hrest, fun _ _ => rfl, hp, fun _ => rfl, rfl, rfl⟩

/-- Settles O35: none of the four forms is one that writes memory or the output, and their written registers are
those `writtenRegs` lists. -/
theorem frameOfTheRegisterForms : Obligations.FrameOfTheRegisterForms := by
  intro s t b c
  refine ⟨?_, fun h => ⟨exec_sameRegsBut h, exec_sameMemory (by simp) h, exec_out_eq (by simp) h⟩⟩
  rintro (h | h | h) <;>
    exact ⟨exec_sameRegsBut h, exec_fl_eq (by simp) h, exec_sameMemory (by simp) h, exec_out_eq (by simp) h⟩

/-! ## Check 4 -/

section
variable {reg : Byte} {r : Reg} {e : FatalError}

theorem exec_push_stack_error (hr : reg.toNat = r.val) (he : spDecrement s.sp = .error e) :
    exec (.push reg) s = raise e s :=
  (commit_bind_ok (regOperand_eq_ok.2 hr)).trans (commit_bind_error he)

theorem exec_call_stack_error (hr : reg.toNat = r.val) (he : spDecrement s.sp = .error e) :
    exec (.call reg) s = raise e s :=
  (commit_bind_ok (regOperand_eq_ok.2 hr)).trans (commit_bind_error he)

theorem exec_pop_stack_error (hr : reg.toNat = r.val) (he : spIncrement (popBase s r) = .error e) :
    exec (.pop reg) s = raise e s :=
  (commit_bind_ok (regOperand_eq_ok.2 hr)).trans (commit_bind_error he)

theorem exec_ret_stack_error (he : spIncrement s.sp = .error e) : exec .ret s = raise e s :=
  commit_bind_error he

end

/-- Settles O33: check 4 follows the register check and comes before that of the following address. -/
theorem theStackPointerDoesNotWrap : Obligations.TheStackPointerDoesNotWrap := by
  intro s b r hb
  refine ⟨fun hsp => ?_, fun hsp => ?_, fun hr hsp => ?_, fun hr hm => ?_⟩
  · have hdec : spDecrement s.sp = .error (.addressError .stack (-1)) := spDecrement_eq_error.2 ⟨hsp, rfl⟩
    exact ⟨faultedWith_of_exec_eq_raise (exec_push_stack_error hb hdec),
      faultedWith_of_exec_eq_raise (exec_call_stack_error hb hdec)⟩
  · exact faultedWith_of_exec_eq_raise (exec_ret_stack_error (spIncrement_eq_error.2 ⟨hsp, rfl⟩))
  · have hbase : popBase s r = 255 := (if_neg hr).trans hsp
    exact faultedWith_of_exec_eq_raise (exec_pop_stack_error hb (spIncrement_eq_error.2 ⟨hbase, rfl⟩))
  · have hbase : popBase s r = 255 := (if_pos hr).trans hm
    exact faultedWith_of_exec_eq_raise (exec_pop_stack_error hb (spIncrement_eq_error.2 ⟨hbase, rfl⟩))

/-! ## Check 5 -/

theorem spDecrement_is_ok {v : Byte} (h : v ≠ 0) : ∃ a, spDecrement v = .ok a := by
  cases hv : spDecrement v with
  | ok a => exact ⟨a, rfl⟩
  | error e => exact absurd (spDecrement_eq_error.1 hv).1 h

theorem spIncrement_is_ok {v : Byte} (h : v ≠ 255) : ∃ a, spIncrement v = .ok a := by
  cases hv : spIncrement v with
  | ok a => exact ⟨a, rfl⟩
  | error e => exact absurd (spIncrement_eq_error.1 hv).1 h

section
variable {reg val regA regB sp' : Byte} {r a b : Reg} {e : FatalError}

theorem exec_prn_following_error (hr : reg.toNat = r.val) (he : nextPc s 2 = .error e) :
    exec (.prn reg) s = raise e s :=
  (commit_bind_ok (regOperand_eq_ok.2 hr)).trans (commit_bind_error he)

theorem exec_ldi_following_error (hr : reg.toNat = r.val) (he : nextPc s 3 = .error e) :
    exec (.ldi reg val) s = raise e s :=
  (commit_bind_ok (regOperand_eq_ok.2 hr)).trans (commit_bind_error he)

theorem aluInstr_following_error {op : AluOp} (ha : regA.toNat = a.val) (hb : regB.toNat = b.val)
    (he : nextPc s 3 = .error e) : aluInstr op regA regB s = raise e s :=
  (commit_bind_ok (regOperand_eq_ok.2 ha)).trans <| (commit_bind_ok (regOperand_eq_ok.2 hb)).trans <|
    commit_bind_error he

theorem exec_jeq_following_error (hr : reg.toNat = r.val) (hE : flagE s.fl = false) (he : nextPc s 2 = .error e) :
    exec (.jeq reg) s = raise e s :=
  (jumpIf_untaken hr hE).trans (commit_bind_error he)

theorem exec_jne_following_error (hr : reg.toNat = r.val) (hE : flagE s.fl = true) (he : nextPc s 2 = .error e) :
    exec (.jne reg) s = raise e s :=
  (jumpIf_untaken (cond := fun fl => !flagE fl) hr (by simpa using hE)).trans (commit_bind_error he)

theorem exec_push_following_error (hr : reg.toNat = r.val) (hsp : spDecrement s.sp = .ok sp')
    (he : nextPc s 2 = .error e) : exec (.push reg) s = raise e s :=
  (commit_bind_ok (regOperand_eq_ok.2 hr)).trans <| (commit_bind_ok hsp).trans <| commit_bind_error he

theorem exec_pop_following_error (hr : reg.toNat = r.val) (hsp : spIncrement (popBase s r) = .ok sp')
    (he : nextPc s 2 = .error e) : exec (.pop reg) s = raise e s :=
  (commit_bind_ok (regOperand_eq_ok.2 hr)).trans <| (commit_bind_ok hsp).trans <| commit_bind_error he

theorem exec_call_following_error (hr : reg.toNat = r.val) (hsp : spDecrement s.sp = .ok sp')
    (he : followingPc s 2 .returnAddress = .error e) : exec (.call reg) s = raise e s :=
  (commit_bind_ok (regOperand_eq_ok.2 hr)).trans <| (commit_bind_ok hsp).trans <| commit_bind_error he

end

/-- Settles O34: check 5 of each meaning, after checks 3 and 4 have passed. -/
theorem theProgramCounterDoesNotWrap : Obligations.TheProgramCounterDoesNotWrap := by
  intro s b c v r r' hb hc
  refine ⟨fun hpc => ?_, fun hpc => ?_⟩
  · have hnext : nextPc s 2 = .error (.addressError .nextPc 256) := nextPc_eq_error.2 ⟨hpc, rfl⟩
    refine ⟨faultedWith_of_exec_eq_raise (exec_prn_following_error hb hnext),
      fun he => faultedWith_of_exec_eq_raise (exec_jeq_following_error hb he hnext),
      fun he => faultedWith_of_exec_eq_raise (exec_jne_following_error hb he hnext),
      fun hsp => ?_, fun hbase => ?_⟩
    · obtain ⟨a, ha⟩ := spDecrement_is_ok hsp
      exact ⟨faultedWith_of_exec_eq_raise (exec_push_following_error hb ha hnext),
        faultedWith_of_exec_eq_raise (exec_call_following_error hb ha (followingPc_eq_error.2 ⟨hpc, rfl⟩))⟩
    · obtain ⟨a, ha⟩ := spIncrement_is_ok hbase
      exact faultedWith_of_exec_eq_raise (exec_pop_following_error hb ha hnext)
  · have hnext : nextPc s 3 = .error (.addressError .nextPc 256) := nextPc_eq_error.2 ⟨hpc, rfl⟩
    exact ⟨faultedWith_of_exec_eq_raise (exec_ldi_following_error hb hnext),
      faultedWith_of_exec_eq_raise (aluInstr_following_error hb hc hnext),
      faultedWith_of_exec_eq_raise (aluInstr_following_error hb hc hnext),
      faultedWith_of_exec_eq_raise (aluInstr_following_error hb hc hnext)⟩

end Sys2Proof.Machine
end

section
/-! Memory: the loaded image, what reaches memory, and a byte pushed into the next instruction's cell. -/

namespace Sys2Proof.Machine

variable {s t : State} {i : Instr}

/-! ## The image -/

theorem loadImage_of_fits {image : List Byte} (h : image.length ≤ 256) :
    loadImage image = .ok { State.reset with mem := Memory.setFrom 0 image State.reset.mem } :=
  if_neg (by omega)

/-- An address of an image stored from 0 up reads its byte, any other reads `MEM_RESET`, which is 0. -/
theorem get_setFrom_zero_reset (image : List Byte) (a : Byte) :
    Memory.get (Memory.setFrom 0 image State.reset.mem) a.toNat = image.getD a.toNat 0 := by
  rw [get_setFrom image 0 a.toNat reset_mem_wf (by omega)]
  by_cases ha : a.toNat < image.length
  · rw [dif_pos ⟨Nat.zero_le _, ha⟩, List.getD_eq_getElem _ _ ha]; rfl
  · rw [dif_neg fun hin => ha hin.2, List.getD_eq_default _ _ (by omega)]; rfl

/-- Settles O7: the image is stored from address 0 in the empty memory, which keeps the canonical form. -/
theorem anImageLoadsFromAddressZero : Obligations.AnImageLoadsFromAddressZero := by
  refine fun image => ⟨fun hfits => ?_, fun hlong => if_pos hlong⟩
  have hinv : Inv { State.reset with mem := Memory.setFrom 0 image State.reset.mem } :=
    ⟨setFrom_wf image 0 reset_mem_wf, rfl⟩
  exact ⟨_, loadImage_of_fits hfits, hinv, rfl, get_setFrom_zero_reset image⟩

/-! ## What fetch reads -/

/-- The bytes from an address up are the same in two states whose cells there read the same. -/
theorem bytesFrom_congr : ∀ (n a : Nat),
    (∀ k, k < n → a + k ≤ 255 → Memory.get t.mem (a + k) = Memory.get s.mem (a + k)) →
      bytesFrom t a n = bytesFrom s a n
  | 0, _, _ => rfl
  | n + 1, a, h => by
    unfold bytesFrom
    split
    · have hrest : bytesFrom t (a + 1) n = bytesFrom s (a + 1) n := bytesFrom_congr n (a + 1) fun k hk ha => by
        rw [Nat.add_assoc, Nat.add_comm 1 k]
        exact h (k + 1) (by omega) (by omega)
      exact congrArg₂ List.cons (h 0 (Nat.succ_pos n) ‹_›) hrest
    · rfl

/-- Fetch looks at nothing but the program counter and the window of three cells there. -/
theorem fetch_congr (hpc : t.pc = s.pc)
    (h : ∀ k, k ≤ 2 → s.pc.toNat + k ≤ 255 → Memory.get t.mem (s.pc.toNat + k) = Memory.get s.mem (s.pc.toNat + k)) :
    fetch t = fetch s := by
  have hwindow : fetchWindow t = fetchWindow s := by
    rw [fetchWindow, fetchWindow, hpc]
    exact bytesFrom_congr 3 _ fun k hk => h k (by omega)
  rw [fetch, fetch, hwindow, hpc]

/-! ## What an instruction reads -/

/-- Two chains of checks that fail with the same error, or pass and answer states that `P` relates. -/
inductive ChecksAgree (P : State → State → Prop) : Except FatalError State → Except FatalError State → Prop where
  | error (e : FatalError) : ChecksAgree P (.error e) (.error e)
  | pure {t u : State} (h : P t u) : ChecksAgree P (pure t) (pure u)

/-- Chains that begin with the same check agree where they agree after it. -/
theorem ChecksAgree.bind {α : Type} {P : State → State → Prop} {x y : Except FatalError α}
    {f g : α → Except FatalError State} (hxy : y = x) (h : ∀ a, x = .ok a → ChecksAgree P (f a) (g a)) :
    ChecksAgree P (x >>= f) (y >>= g) := by
  subst hxy
  cases y with
  | ok a => exact h a rfl
  | error e => exact .error e

/-- Instructions whose checks agree answer related states, where recording the same error does too. -/
theorem ChecksAgree.commit_next {P : State → State → Prop} {s' : State} {x y : Except FatalError State}
    (h : ChecksAgree P x y) (hraise : ∀ e, P (s.setRun (.faulted e)) (s'.setRun (.faulted e)))
    (hx : commit s x = .next t) : ∃ u, commit s' y = .next u ∧ P t u := by
  cases h with
  | error e => cases hx; exact ⟨_, rfl, hraise e⟩
  | pure h => cases hx; exact ⟨_, rfl, h⟩

/-- `u` is `t` but for its memory, which is `m`. -/
def SameWithMem (m : Memory) (t u : State) : Prop := u = { t with mem := m }

/-- `t` has kept the memory of `s` and `u` the memory `m`, or both have the same byte stored at the stack pointer; but
for memory, `t` and `u` are the same. -/
def SameStore (s : State) (m : Memory) (t u : State) : Prop :=
  (t.mem = s.mem ∧ SameWithMem m t u) ∨
    ∃ v, t.mem = Memory.set t.sp.toNat v s.mem ∧ SameWithMem (Memory.set t.sp.toNat v m) t u

/-- An instruction whose checks and effects do not depend on the memory answers the same with another one. -/
theorem commit_withMem {m : Memory} {x y : Except FatalError State} (hx : commit s x = .next t)
    (h : ChecksAgree (SameWithMem m) x y) : commit { s with mem := m } y = .next { t with mem := m } := by
  have hraise (e : FatalError) : SameWithMem m (s.setRun (.faulted e)) (State.setRun { s with mem := m } (.faulted e)) :=
    rfl
  obtain ⟨u, hu, rfl⟩ := h.commit_next hraise hx
  exact hu

theorem aluInstr_withMem {op : AluOp} {regA regB : Byte} (m : Memory) (h : aluInstr op regA regB s = .next t) :
    aluInstr op regA regB { s with mem := m } = .next { t with mem := m } :=
  commit_withMem h (.bind rfl fun _ _ => .bind rfl fun _ _ => .bind rfl fun _ _ => .pure (by cases op <;> rfl))

theorem jumpIf_withMem {cond : Byte → Bool} {reg : Byte} (m : Memory) (h : jumpIf cond reg s = .next t) :
    jumpIf cond reg { s with mem := m } = .next { t with mem := m } := by
  refine commit_withMem h (.bind rfl fun r _ => ?_)
  by_cases hc : cond s.fl = true
  · rw [if_pos hc, if_pos hc]; exact .pure rfl
  · rw [if_neg hc, if_neg hc]; exact .bind rfl fun _ _ => .pure rfl

/-- The forms that store nothing answer the same with another memory, where POP and RET find the same byte at the
stack pointer. -/
theorem exec_withMem {m : Memory} (hi : ∀ b, i ≠ .push b ∧ i ≠ .call b)
    (hm : (i = .ret ∨ ∃ b, i = .pop b) → Memory.get m s.sp.toNat = Memory.get s.mem s.sp.toNat)
    (h : exec i s = .next t) : exec i { s with mem := m } = .next { t with mem := m } := by
  cases i with
  | push b => exact absurd rfl (hi b).1
  | call b => exact absurd rfl (hi b).2
  | halt => cases h; rfl
  | prn reg => exact commit_withMem h (.bind rfl fun _ _ => .bind rfl fun _ _ => .pure rfl)
  | ldi reg val => exact commit_withMem h (.bind rfl fun _ _ => .bind rfl fun _ _ => .pure rfl)
  | add regA regB => exact aluInstr_withMem m h
  | mul regA regB => exact aluInstr_withMem m h
  | cmp regA regB => exact aluInstr_withMem m h
  | jeq reg => exact jumpIf_withMem m h
  | jne reg => exact jumpIf_withMem (cond := fun fl => !flagE fl) m h
  | jmp reg => exact commit_withMem h (.bind rfl fun _ _ => .pure rfl)
  | pop reg =>
    have hread : State.readMem { s with mem := m } (State.sp { s with mem := m }) = s.readMem s.sp :=
      hm (.inr ⟨reg, rfl⟩)
    have hbase (r : Reg) : popBase { s with mem := m } r = popBase s r := if_congr Iff.rfl hread rfl
    refine commit_withMem h
      (.bind rfl fun r _ => .bind (congrArg spIncrement (hbase r)) fun a _ => .bind rfl fun p _ => .pure ?_)
    rw [hread]; rfl
  | ret =>
    have hread : State.readMem { s with mem := m } (State.sp { s with mem := m }) = s.readMem s.sp := hm (.inl rfl)
    refine commit_withMem h (.bind rfl fun a _ => .pure ?_)
    rw [hread]; rfl

/-- A push stores the same byte at its stack pointer, whatever the memory holds. -/
theorem sameStore_pushAt (s : State) (m : Memory) (a v p : Byte) :
    SameStore s m ((pushAt s a v).setPc p) ((pushAt { s with mem := m } a v).setPc p) :=
  have hsp : ((pushAt s a v).setPc p).sp = a := sp_pushAt s a v
  .inr ⟨v, by rw [hsp]; rfl, by rw [hsp]; rfl⟩

/-- PUSH and CALL read no cell: whatever the memory, they make the same store or fault alike. -/
theorem exec_sameStore (m : Memory) (hi : ∃ b, i = .push b ∨ i = .call b) (h : exec i s = .next t) :
    ∃ u, exec i { s with mem := m } = .next u ∧ SameStore s m t u := by
  have hraise (e : FatalError) :
      SameStore s m (s.setRun (.faulted e)) (State.setRun { s with mem := m } (.faulted e)) := .inl ⟨rfl, rfl⟩
  obtain ⟨b, rfl | rfl⟩ := hi <;>
    exact ChecksAgree.commit_next (.bind rfl fun _ _ => .bind rfl fun _ _ => .bind rfl fun _ _ =>
      .pure (sameStore_pushAt s m _ _ _)) hraise h

theorem exec_mem_eq (hi : ∀ b, i ≠ .push b ∧ i ≠ .call b) (h : exec i s = .next t) : t.mem = s.mem :=
  (exec_mem_cases h).resolve_right fun ⟨⟨b, hb⟩, _⟩ => not_or.2 (hi b) hb

/-- Settles O19: fetch depends on its window alone, and every meaning on the cell at the stack pointer at most. -/
theorem onlyFetchAndTheStackReachMemory : Obligations.OnlyFetchAndTheStackReachMemory := by
  refine fun s m => ⟨fetch_congr (s := s) (t := { s with mem := m }) rfl, fun i t hi hret h => ?_,
    fun i t hi hm h => ?_, fun i t hi h => ?_⟩
  · have hstores (b : Byte) : i ≠ .push b ∧ i ≠ .call b := ⟨(hi b).1, (hi b).2.1⟩
    have hreads : ¬ (i = .ret ∨ ∃ b, i = .pop b) := not_or.2 ⟨hret, fun ⟨b, hb⟩ => (hi b).2.2 hb⟩
    exact ⟨exec_mem_eq hstores h, exec_withMem hstores (fun hr => absurd hr hreads) h⟩
  · have hstores (b : Byte) : i ≠ .push b ∧ i ≠ .call b := by
      obtain rfl | ⟨c, rfl⟩ := hi <;> simp
    exact ⟨exec_mem_eq hstores h, exec_withMem hstores (fun _ => hm) h⟩
  · obtain ⟨u, hu, ⟨hmem, rfl⟩ | ⟨v, hmem, rfl⟩⟩ := exec_sameStore m hi h
    · exact .inl ⟨hmem, hu⟩
    · exact .inr ⟨v, hmem, hu⟩

/-! ## What fetch answers -/

/-- The encoding of an instruction is decoded to it, whatever follows. -/
theorem decode_encode_append (i : Instr) (rest : List Byte) : decode (encode i ++ rest) = .ok (i, rest) := by
  have hop : Opcode.ofByte? i.opcode.byte = some i.opcode := ofByte?_byte i.opcode
  simp only [encode, List.cons_append, decode, hop]
  cases i <;> rfl

/-- The encoding of an instruction has the length its opcode fixes, one to three bytes. -/
theorem encodeLength : ∀ i : Instr, Laws.EncodeLength.Statement i
  | .halt => Laws.EncodeLength.halt
  | .prn reg => Laws.EncodeLength.prn reg
  | .ldi reg val => Laws.EncodeLength.ldi reg val
  | .add regA regB => Laws.EncodeLength.add regA regB
  | .mul regA regB => Laws.EncodeLength.mul regA regB
  | .push reg => Laws.EncodeLength.push reg
  | .pop reg => Laws.EncodeLength.pop reg
  | .call reg => Laws.EncodeLength.call reg
  | .ret => Laws.EncodeLength.ret
  | .cmp regA regB => Laws.EncodeLength.cmp regA regB
  | .jeq reg => Laws.EncodeLength.jeq reg
  | .jne reg => Laws.EncodeLength.jne reg
  | .jmp reg => Laws.EncodeLength.jmp reg

/-- The length a byte's opcode fixes, in the terms of `Safety`, is the decoder's. -/
theorem lengthOfOpcode_eq (b : Byte) : lengthOfOpcode b = (Opcode.ofByte? b).map Opcode.length := by
  cases hb : Opcode.ofByte? b with
  | some o =>
    obtain rfl := ofByte?_eq_some.1 hb
    cases o <;> rfl
  | none =>
    have hnot (l : List Byte) (hl : ∀ c ∈ l, Opcode.ofByte? c ≠ none) : b ∉ l := fun hmem => hl b hmem hb
    unfold lengthOfOpcode
    rw [if_neg (hnot _ (by decide)), if_neg (hnot _ (by decide)), if_neg (hnot _ (by decide))]
    rfl

theorem takeR_truncated {mk : Byte → Instr} {bs : List Byte} (h : bs.length < 1) :
    takeR mk bs = .error .truncated := by
  match bs, h with
  | [], _ => rfl

theorem takeRR_truncated {mk : Byte → Byte → Instr} {bs : List Byte} (h : bs.length < 2) :
    takeRR mk bs = .error .truncated := by
  match bs, h with
  | [], _ => rfl
  | [_], _ => rfl

/-- Operand bytes too few for the opcode are reported as such. -/
theorem decodeOperands_truncated {o : Opcode} {bs : List Byte} (h : bs.length + 1 < o.length) :
    decodeOperands o bs = .error .truncated := by
  have hfew : bs.length < o.length - 1 := by omega
  cases o with
  | halt | ret => exact absurd hfew (Nat.not_lt_zero _)
  | prn | push | pop | call | jeq | jne | jmp => exact takeR_truncated hfew
  | ldi | add | mul | cmp => exact takeRR_truncated hfew

/-- The bytes fetch reads: the one at the program counter, then those after it. -/
theorem fetchWindow_eq (s : State) : fetchWindow s = s.readMem s.pc :: bytesFrom s (s.pc.toNat + 1) 2 :=
  if_pos (by omega)

/-- Where the cells at the program counter and up hold the encoding of an instruction, that is fetched. -/
theorem fetch_of_bytes (hfits : s.pc.toNat + i.length ≤ 256)
    (hbytes : ∀ k, k < i.length → s.readMem (s.pc + BitVec.ofNat 8 k) = (encode i).getD k 0) : fetch s = .ok i := by
  obtain ⟨hlen, -, hle⟩ := encodeLength i
  have htake : (fetchWindow s).take i.length = encode i := by
    refine List.ext_getElem? fun k => ?_
    rw [List.getElem?_take]
    split
    · rename_i hk
      rw [fetchWindow, bytesFrom_get s 3 _ k (by omega) (by omega), ← readMem_add s s.pc k (by omega), hbytes k hk,
        List.getD_eq_getElem _ _ (by omega)]
      simp
    · rw [List.getElem?_eq_none (by omega)]
  rw [fetch, ← List.take_append_drop i.length (fetchWindow s), htake, decode_encode_append]

/-- Check 1: a byte that is no opcode is recorded with its address (rule R83). -/
theorem fetch_invalidOpcode (h : lengthOfOpcode (s.readMem s.pc) = none) :
    fetch s = .error (.invalidOpcode (s.readMem s.pc) s.pc) := by
  have hop : Opcode.ofByte? (s.readMem s.pc) = none := by simpa [lengthOfOpcode_eq] using h
  simp only [fetch, fetchWindow_eq, decode, hop]

/-- Check 2: an instruction that ends above address 255 is an AddressError (rule R84). -/
theorem fetch_operand_above {len : Nat} (h : lengthOfOpcode (s.readMem s.pc) = some len)
    (hlen : s.pc.toNat + len > 256) : fetch s = .error (.addressError .operand 256) := by
  obtain ⟨o, hop, rfl⟩ : ∃ o, Opcode.ofByte? (s.readMem s.pc) = some o ∧ o.length = len := by
    simpa [lengthOfOpcode_eq] using h
  have htrunc : decodeOperands o (bytesFrom s (s.pc.toNat + 1) 2) = .error .truncated :=
    decodeOperands_truncated (by rw [bytesFrom_length]; omega)
  simp only [fetch, fetchWindow_eq, decode, hop, htrunc]

theorem step_of_fetch_ok (hrun : s.run = .running) (h : fetch s = .ok i) : step s = exec i s := by
  rw [step_running hrun, h]

theorem step_of_fetch_error {e : FatalError} (hrun : s.run = .running) (h : fetch s = .error e) :
    step s = .next { s with run := .faulted e } := by
  rw [step_running hrun, h]; rfl

/-! ## A byte pushed into the next instruction's cell -/

theorem readMem_pushAt_same (s : State) (a v : Byte) (h : s.mem.wf = true) : (pushAt s a v).readMem a = v :=
  readMem_writeMem_same (s.setSp a) a v h

theorem readMem_pushAt_other (s : State) (a v c : Byte) (h : c ≠ a) : (pushAt s a v).readMem c = s.readMem c :=
  readMem_writeMem_other (s.setSp a) a v c h

/-- What a PUSH that passes its checks leaves at the decremented stack pointer `a` and elsewhere; the stack pointer
itself is pushed decremented (D18). -/
theorem exec_push_of_checks {reg a p : Byte} {r : Reg} (hwf : s.mem.wf = true) (hr : reg.toNat = r.val)
    (ha : spDecrement s.sp = .ok a) (hp : p.toNat = s.pc.toNat + 2) :
    ∃ t, exec (.push reg) s = .next t ∧ t.pc = p ∧ t.run = s.run ∧
      t.readMem a = (if r = config.spIndex then a else s.readReg r) ∧ ∀ c, c ≠ a → t.readMem c = s.readMem c :=
  ⟨_, (Completes.push hr ha hp).exec, rfl, rfl, (readMem_pushAt_same s a _ hwf).trans (readReg_setSp s a r),
    readMem_pushAt_other s a _⟩

/-- Settles O41: the PUSH completes with the stack pointer and the program counter at one address, so that the next
step fetches the byte it stored and, above it, the bytes that were there. -/
theorem aPushedByteIsFetchedByTheNextStep : Obligations.APushedByteIsFetchedByTheNextStep := by
  intro s b r hwf hrun hb hpc hsp
  obtain ⟨p, hp⟩ := exists_following hpc
  have hdec : spDecrement s.sp = .ok p := spDecrement_eq_ok.2 (by omega)
  have hpsp : p = s.sp - 1 := by bv_omega
  obtain ⟨t, ht, rfl, htrun, hpushed, hother⟩ := exec_push_of_checks hwf hb hdec hp
  have htrun : t.run = .running := htrun.trans hrun
  refine ⟨t, ht, hp, hpsp ▸ hpushed, fun i h0 hfits hrest => ?_,
    fun hop => step_of_fetch_error htrun (fetch_invalidOpcode hop),
    fun len hop hlen => step_of_fetch_error htrun (fetch_operand_above hop hlen)⟩
  refine step_of_fetch_ok htrun (fetch_of_bytes hfits fun k hk => ?_)
  obtain rfl | hk0 := Nat.eq_zero_or_pos k
  · exact (congrArg t.readMem (BitVec.add_zero t.pc)).trans h0.symm
  · have hlen : i.length ≤ 3 := (encodeLength i).2.2
    have habove : t.pc + BitVec.ofNat 8 k ≠ t.pc := by bv_omega
    exact (hother _ habove).trans (hrest k hk0 hk)

end Sys2Proof.Machine
end

section
/-! Encoding: decoding inverts encoding, the opcode byte is compared whole, and every bad register operand faults. -/

namespace Sys2Proof.Machine

variable {s : State} {i : Instr}

/-! ## Decoding inverts encoding -/

/-- Operand bytes read for an opcode are the operand bytes of an instruction of that opcode. -/
theorem eq_operandBytes_of_decodeOperands {o : Opcode} {bs rest : List Byte} (h : decodeOperands o bs = .ok (i, rest)) :
    i.opcode = o ∧ bs = i.operandBytes ++ rest := by
  cases o with
  | halt | ret =>
    obtain ⟨rfl, rfl⟩ := takeZ_eq_ok.1 h
    exact ⟨rfl, rfl⟩
  | prn | push | pop | call | jeq | jne | jmp =>
    obtain ⟨a, rfl, rfl⟩ := takeR_eq_ok.1 h
    exact ⟨rfl, rfl⟩
  | ldi | add | mul | cmp =>
    obtain ⟨a, b, rfl, rfl⟩ := takeRR_eq_ok.1 h
    exact ⟨rfl, rfl⟩

theorem decode_cons_of_ofByte?_none {op : Byte} (h : Opcode.ofByte? op = none) (bs : List Byte) :
    decode (op :: bs) = .error (.invalidOpcode op) := by
  rw [decode, h]

theorem decode_cons_of_ofByte?_some {op : Byte} {o : Opcode} (h : Opcode.ofByte? op = some o) (bs : List Byte) :
    decode (op :: bs) = decodeOperands o bs := by
  rw [decode, h]

/-- Bytes that decode begin with the byte of the instruction's opcode, its operand bytes next. -/
theorem decode_cons_eq_ok {op : Byte} {bs rest : List Byte} (h : decode (op :: bs) = .ok (i, rest)) :
    op = i.opcode.byte ∧ bs = i.operandBytes ++ rest := by
  cases hop : Opcode.ofByte? op with
  | none =>
    rw [decode_cons_of_ofByte?_none hop] at h
    cases h
  | some o =>
    rw [decode_cons_of_ofByte?_some hop] at h
    obtain ⟨rfl, hbs⟩ := eq_operandBytes_of_decodeOperands h
    exact ⟨ofByte?_eq_some.1 hop, hbs⟩

/-- Settles O1: the opcode byte and then the operand bytes of decoded bytes are those of the encoding. -/
theorem bytesDecodeToAnInstructionExactlyWhenTheyAreItsEncoding :
    Obligations.BytesDecodeToAnInstructionExactlyWhenTheyAreItsEncoding := by
  intro bs i rest
  constructor
  · intro h
    cases bs with
    | nil => cases h
    | cons op bs =>
      obtain ⟨rfl, rfl⟩ := decode_cons_eq_ok h
      rfl
  · rintro rfl
    exact decode_encode_append i rest

/-- Settles O2: each row is the encoding of its instruction. -/
theorem theThirteenRowsOfTheOpcodeMapDecode : Obligations.TheThirteenRowsOfTheOpcodeMapDecode :=
  fun a b rest =>
    ⟨decode_encode_append .halt rest, decode_encode_append (.prn a) rest, decode_encode_append (.ldi a b) rest,
      decode_encode_append (.add a b) rest, decode_encode_append (.mul a b) rest, decode_encode_append (.push a) rest,
      decode_encode_append (.pop a) rest, decode_encode_append (.call a) rest, decode_encode_append .ret rest,
      decode_encode_append (.cmp a b) rest, decode_encode_append (.jeq a) rest, decode_encode_append (.jne a) rest,
      decode_encode_append (.jmp a) rest⟩

/-! ## The opcode byte -/

theorem opcodeByte_injective : Function.Injective Opcode.byte := fun o o' h => by
  have hsome : Opcode.ofByte? o.byte = some o' := ofByte?_eq_some.2 h
  simpa using hsome

/-- Settles O3: the byte that begins an instruction is the byte of its opcode. -/
theorem opcodesAreSelectedByExactValue : Obligations.OpcodesAreSelectedByExactValue := by
  intro op₁ op₂ bs₁ bs₂ i₁ i₂ rest₁ rest₂ h₁ h₂
  obtain ⟨rfl, -⟩ := decode_cons_eq_ok h₁
  obtain ⟨rfl, -⟩ := decode_cons_eq_ok h₂
  exact opcodeByte_injective.eq_iff.symm

/-- The bytes of the opcodes are those of the opcode map (rule R66). -/
theorem opcodeByte_mem (o : Opcode) :
    o.byte ∈ ([0x01, 0x47, 0x82, 0xA0, 0xA2, 0x45, 0x46, 0x50, 0x11, 0xA7, 0x55, 0x56, 0x54] : List Byte) := by
  cases o <;> decide

/-- Settles O4: a byte off the list selects no opcode, which check 1 records. -/
theorem everyOtherOpcodeByteIsAnInvalidOpcode : Obligations.EveryOtherOpcodeByteIsAnInvalidOpcode := by
  intro op hop
  have hnone : Opcode.ofByte? op = none := ofByte?_eq_none.2 fun o ho => hop (ho ▸ opcodeByte_mem o)
  refine ⟨decode_cons_of_ofByte?_none hnone, ?_⟩
  rintro s hrun rfl
  have hlen : lengthOfOpcode (s.readMem s.pc) = none := by rw [lengthOfOpcode_eq, hnone]; rfl
  exact ⟨_, step_of_fetch_error hrun (fetch_invalidOpcode hlen), rfl, rfl⟩

/-! ## LDI -/

/-- Settles O22: the LDI completes, and its one register write is the immediate byte. -/
theorem ldiLoadsTheWholeImmediateByte : Obligations.LdiLoadsTheWholeImmediateByte := by
  intro s b v r hb hpc
  obtain ⟨p, hp⟩ := exists_following hpc
  exact ⟨_, (Completes.ldi hb hp).exec, readReg_setReg_same s r v,
    sameRegsBut_setReg s v (List.mem_singleton_self r.val), hp, fun _ => rfl, rfl, rfl, rfl⟩

/-! ## Check 3 -/

/-- The first of the register operand bytes that names no register (rule R85). -/
def firstBadRegister (bs : List Byte) : Option Byte := bs.find? fun c => decide (c.toNat > 7)

theorem firstBadRegister_cons {a b : Byte} {bs : List Byte} (h : firstBadRegister (a :: bs) = some b) :
    regOperand a = .error (.registerIndexError b) ∨ ∃ r, regOperand a = .ok r ∧ firstBadRegister bs = some b := by
  cases ha : regOperand a with
  | error e =>
    obtain ⟨hbad, rfl⟩ := regOperand_eq_error.1 ha
    have hfirst : firstBadRegister (a :: bs) = some a := List.find?_cons_of_pos (decide_eq_true hbad)
    obtain rfl : a = b := Option.some.inj (hfirst.symm.trans h)
    exact .inl rfl
  | ok r =>
    have hgood : ¬ a.toNat > 7 := Nat.not_lt.2 (regOperand_eq_ok.1 ha ▸ Nat.le_of_lt_succ r.isLt)
    exact .inr ⟨r, rfl, (List.find?_cons_of_neg (by simpa using hgood)).symm.trans h⟩

theorem firstBadRegister_singleton {a b : Byte} (h : firstBadRegister [a] = some b) :
    regOperand a = .error (.registerIndexError b) :=
  (firstBadRegister_cons h).resolve_right fun ⟨_, _, hnil⟩ => nomatch hnil

/-- An ALU instruction checks both of its register operands, `opa` first. -/
theorem aluInstr_register_error {op : AluOp} {regA regB b : Byte} (h : firstBadRegister [regA, regB] = some b) :
    aluInstr op regA regB s = raise (.registerIndexError b) s := by
  obtain ha | ⟨r, ha, hb⟩ := firstBadRegister_cons h
  · exact commit_bind_error ha
  · exact (commit_bind_ok ha).trans (commit_bind_error (firstBadRegister_singleton hb))

/-- Check 3 comes first in every meaning (rule R83). -/
theorem exec_register_error {b : Byte} (h : firstBadRegister i.regOperands = some b) :
    exec i s = raise (.registerIndexError b) s := by
  cases i with
  | halt | ret => cases h
  | prn | ldi | push | pop | call | jeq | jne | jmp => exact commit_bind_error (firstBadRegister_singleton h)
  | add | mul | cmp => exact aluInstr_register_error h

/-- Settles O31: check 3 fails before anything else an instruction does. -/
theorem aBadRegisterOperandIsARegisterIndexError : Obligations.ABadRegisterOperandIsARegisterIndexError :=
  fun _ _ _ h => faultedWith_of_exec_eq_raise (exec_register_error h)

end Sys2Proof.Machine
end

section
/-! The execution cycle: what a step fetches, and the first of the five checks that fails. -/

namespace Sys2Proof.Machine

variable {s t : State} {i : Instr} {o : Opcode} {a b : Byte}

/-! ## The instruction at the program counter -/

/-- Settles O12: where the encoding lies in memory it is what is fetched. -/
theorem aStepExecutesTheInstructionAtThePc : Obligations.AStepExecutesTheInstructionAtThePc :=
  fun _ _ hrun hfits hbytes => step_of_fetch_ok hrun (fetch_of_bytes hfits hbytes)

/-- Settles O32: an instruction that ends above address 255 is not fetched. -/
theorem anOperandByteAbove255IsAnAddressError : Obligations.AnOperandByteAbove255IsAnAddressError :=
  fun _ _ hrun hlen habove => ⟨_, step_of_fetch_error hrun (fetch_operand_above hlen habove), rfl⟩

/-- The instruction of an opcode whose operand bytes are `a` and `b`, as many of them as its format has;
`fetch_of_opcode` ties it to fetch. -/
def instrOf (o : Opcode) (a b : Byte) : Instr :=
  match o with
  | .halt => .halt
  | .prn => .prn a
  | .ldi => .ldi a b
  | .add => .add a b
  | .mul => .mul a b
  | .push => .push a
  | .pop => .pop a
  | .call => .call a
  | .ret => .ret
  | .cmp => .cmp a b
  | .jeq => .jeq a
  | .jne => .jne a
  | .jmp => .jmp a

@[simp] theorem instrOf_opcode (o : Opcode) (a b : Byte) : (instrOf o a b).opcode = o := by
  cases o <;> rfl

@[simp] theorem instrOf_length (o : Opcode) (a b : Byte) : (instrOf o a b).length = o.length := by
  rw [Instr.length, instrOf_opcode]

theorem encode_instrOf (o : Opcode) (a b : Byte) : encode (instrOf o a b) = [o.byte, a, b].take o.length := by
  cases o <;> rfl

theorem instrOf_eq_halt : instrOf o a b = .halt ↔ o.byte = 0x01 := by
  constructor
  · intro h
    have hop : o = .halt := by rw [← instrOf_opcode o a b, h]; rfl
    rw [hop]; rfl
  · intro h
    obtain rfl : o = .halt := opcodeByte_injective h
    rfl

/-- Where check 2 passes, the opcode at the program counter is fetched with the bytes after it. -/
theorem fetch_of_opcode (hop : s.readMem s.pc = o.byte) (hfits : s.pc.toNat + o.length ≤ 256) :
    fetch s = .ok (instrOf o (s.readMem (s.pc + 1)) (s.readMem (s.pc + 2))) := by
  refine fetch_of_bytes (by simpa using hfits) fun k hk => ?_
  have hlen : o.length ≤ 3 := by simpa using (encodeLength (instrOf o 0 0)).2.2
  rw [instrOf_length] at hk
  rw [encode_instrOf, List.getD_eq_getElem?_getD, List.getElem?_take_of_lt hk]
  match k, (show k < 3 by omega) with
  | 0, _ => simpa using hop
  | 1, _ => rfl
  | 2, _ => rfl

/-! ## A jump to itself -/

/-- A JMP whose register holds its own address is a step from the state to itself. -/
theorem step_jump_to_itself {r : Reg} (hrun : s.run = .running) (hpc : s.pc.toNat + 1 ≤ 255)
    (hop : s.readMem s.pc = 0x54) (hr : (s.readMem (s.pc + 1)).toNat = r.val) (htarget : s.readReg r = s.pc) :
    step s = .next s := by
  have hlen : Opcode.jmp.length = 2 := rfl
  calc step s = exec (.jmp (s.readMem (s.pc + 1))) s :=
        step_of_fetch_ok hrun (fetch_of_opcode (o := .jmp) hop (by omega))
    _ = .next (s.setPc (s.readReg r)) := (Completes.jmp hr).exec
    _ = .next s := by rw [htarget]; rfl

/-- Settles O44, by induction on the number of steps. -/
theorem aJumpToItselfRunsForever : Obligations.AJumpToItselfRunsForever := by
  intro s r n hrun hpc hop hr htarget
  induction n with
  | zero => rfl
  | succ n ih => exact (run_succ_of_step (step_jump_to_itself hrun hpc hop hr htarget)).trans ih

/-! ## A fatal error -/

/-- An instruction that completes in RUNNING records no error. -/
theorem Completes.isSafe (hrun : s.run = .running) (h : Completes s i t) : t.isSafe = true := by
  obtain ⟨-, rfl⟩ | ⟨-, ht⟩ := h.run_cases
  · rfl
  · rw [State.isSafe, ht, hrun]

theorem not_isSafe_of_faulted {e : FatalError} (h : t.run = .faulted e) : ¬ t.isSafe = true := by
  simp [State.isSafe, h]

/-- Settles O15: a step that records an error did not complete an instruction, so it raised the error. -/
theorem aFatalErrorChangesOnlyTheRunStateAndStops : Obligations.AFatalErrorChangesOnlyTheRunStateAndStops := by
  intro s t e h hfault
  refine ⟨?_, step_faulted hfault⟩
  have hraised : RaisedIn s t := by
    obtain ⟨hrun, ⟨i, -, hi⟩ | hraised⟩ := step_next_cases h
    · exact (exec_next_cases hi).resolve_left fun hc => not_isSafe_of_faulted hfault (hc.isSafe hrun)
    · exact hraised
  obtain ⟨e', rfl⟩ := hraised
  obtain rfl : e' = e := RunState.faulted.inj hfault
  rfl

/-! ## The rules' tables of checks 3 to 5 are the checks the meanings make -/

/-- The error a check of a meaning answers, if any. -/
def errorOf {α : Type} : Except FatalError α → Option FatalError
  | .ok _ => none
  | .error e => some e

theorem errorOf_regOperand (b : Byte) :
    errorOf (regOperand b) = if b.toNat > 7 then some (.registerIndexError b) else none := by
  unfold regOperand
  split
  · rw [if_neg (by omega)]; rfl
  · rw [if_pos (by omega)]; rfl

theorem errorOf_spDecrement (v : Byte) :
    errorOf (spDecrement v) = if v = 0 then some (.addressError .stack (-1)) else none := by
  simp only [spDecrement, config, and_true]
  split <;> rfl

theorem errorOf_spIncrement (v : Byte) :
    errorOf (spIncrement v) = if v = 255 then some (.addressError .stack 256) else none := by
  simp only [spIncrement, config, and_true]
  split <;> rfl

theorem errorOf_followingPc (s : State) (len : Nat) (k : AddressKind) :
    errorOf (followingPc s len k) = if s.pc.toNat + len > 255 then some (.addressError k 256) else none := by
  unfold followingPc
  split <;> rfl

theorem errorOf_nextPc (s : State) (len : Nat) :
    errorOf (nextPc s len) = if s.pc.toNat + len > 255 then some (.addressError .nextPc 256) else none :=
  errorOf_followingPc s len .nextPc

theorem ite_some_or {α : Type} {p : Prop} [Decidable p] {x : α} {c : Option α} :
    (if p then some x else none).or c = if p then some x else c := by
  split <;> rfl

/-- Check 3's table, by the format (rule R85). -/
theorem registerCheck_byte (o : Opcode) (a b : Byte) :
    registerCheck o.byte a b o.length =
      match o.format with
      | .z => none
      | .r | .ri => errorOf (regOperand a)
      | .rr => (errorOf (regOperand a)).or (errorOf (regOperand b)) := by
  simp only [errorOf_regOperand, ite_some_or]
  cases o <;> simp [registerCheck, Opcode.byte, Opcode.length, Opcode.format, Format.length]

/-- Check 4's table, by the opcode (rule R86). -/
theorem stackCheck_byte (s : State) (o : Opcode) (a : Byte) :
    stackCheck s o.byte a =
      match o with
      | .push | .call => errorOf (spDecrement s.sp)
      | .ret => errorOf (spIncrement s.sp)
      | .pop => errorOf (spIncrement (if a.toNat = config.spIndex.val then s.readMem s.sp else s.sp))
      | _ => none := by
  simp only [errorOf_spDecrement, errorOf_spIncrement]
  cases o <;> simp [stackCheck, Opcode.byte]

theorem flagE_eq (fl : Byte) : flagE fl = decide (fl.toNat % 2 = 1) := Nat.testBit_zero fl.toNat

/-- Check 5's table, by the opcode (rule R87). -/
theorem followingCheck_byte (s : State) (o : Opcode) :
    followingCheck s o.byte o.length =
      match o with
      | .halt | .ret | .jmp => none
      | .call => errorOf (followingPc s 2 .returnAddress)
      | .jeq => if flagE s.fl then none else errorOf (nextPc s 2)
      | .jne => if !flagE s.fl then none else errorOf (nextPc s 2)
      | o => errorOf (nextPc s o.length) := by
  simp only [errorOf_followingPc, errorOf_nextPc, flagE_eq]
  cases o with
  | jeq | jne =>
    obtain h | h := Nat.mod_two_eq_zero_or_one s.fl.toNat <;>
      simp [h, followingCheck, fallsThrough, Opcode.byte, Opcode.length, Opcode.format, Format.length]
  | _ => simp [followingCheck, fallsThrough, Opcode.byte, Opcode.length, Opcode.format, Format.length]

/-- The first of checks 3 to 5 that fails, by the rules' tables (rules R85 to R87). -/
def laterCheck (s : State) (o : Opcode) (a b : Byte) : Option FatalError :=
  (registerCheck o.byte a b o.length).or <| (stackCheck s o.byte a).or <| followingCheck s o.byte o.length

/-! ## The first of checks 3 to 5 that fails decides the instruction -/

/-- `DecidedBy s i c`: the instruction `i` raises the error `c` in `s`, or completes where `c` is none. -/
inductive DecidedBy (s : State) (i : Instr) : Option FatalError → Prop where
  | raises {e : FatalError} (h : exec i s = raise e s) : DecidedBy s i (some e)
  | completes {t : State} (h : Completes s i t) : DecidedBy s i none

section
variable {α : Type} {x : Except FatalError α} {f : α → Except FatalError State} {c : Option FatalError}

/-- A check that fails decides; else the checks after it do. -/
theorem DecidedBy.bind (hexec : exec i s = commit s (x >>= f))
    (h : ∀ v, x = .ok v → exec i s = commit s (f v) → DecidedBy s i c) : DecidedBy s i ((errorOf x).or c) := by
  cases hx : x with
  | error e => exact .raises (hexec.trans (commit_bind_error hx))
  | ok v => exact h v hx (hexec.trans (commit_bind_ok hx))

/-- The last check decides alone. -/
theorem DecidedBy.last (hexec : exec i s = commit s (x >>= f)) (h : ∀ v, x = .ok v → ∃ t, Completes s i t) :
    DecidedBy s i (errorOf x) := by
  rw [← Option.or_none (o := errorOf x)]
  exact .bind hexec fun v hv _ => let ⟨_, ht⟩ := h v hv; .completes ht

end

theorem decidedBy_of_jumpIf {cond : Byte → Bool} {a : Byte} (hexec : exec i s = jumpIf cond a s)
    (htaken : ∀ r : Reg, a.toNat = r.val → cond s.fl = true → Completes s i (s.setPc (s.readReg r)))
    (huntaken : ∀ (r : Reg) (p : Byte), a.toNat = r.val → cond s.fl = false → p.toNat = s.pc.toNat + 2 →
      Completes s i (s.setPc p)) :
    DecidedBy s i ((errorOf (regOperand a)).or (if cond s.fl then none else errorOf (nextPc s 2))) := by
  refine .bind hexec fun r hr h => ?_
  split at h
  · rw [if_pos ‹_›]
    exact .completes (htaken r (regOperand_eq_ok.1 hr) ‹_›)
  · rename_i hc
    rw [if_neg hc]
    exact .last h fun p hp =>
      ⟨_, huntaken r p (regOperand_eq_ok.1 hr) (Bool.not_eq_true _ ▸ hc) (nextPc_eq_ok.1 hp)⟩

theorem decidedBy_of_aluInstr {op : AluOp} {a b : Byte} (hexec : exec i s = aluInstr op a b s)
    (h : ∀ (ra rb : Reg) (p : Byte), a.toNat = ra.val → b.toNat = rb.val → p.toNat = s.pc.toNat + 3 →
      ∃ t, Completes s i t) :
    DecidedBy s i (((errorOf (regOperand a)).or (errorOf (regOperand b))).or (errorOf (nextPc s 3))) := by
  rw [Option.or_assoc]
  exact .bind hexec fun ra ha hexec => .bind hexec fun rb hb hexec => .last hexec fun p hp =>
    h ra rb p (regOperand_eq_ok.1 ha) (regOperand_eq_ok.1 hb) (nextPc_eq_ok.1 hp)

theorem popBase_of_operand {r : Reg} (hr : a.toNat = r.val) :
    popBase s r = if a.toNat = config.spIndex.val then s.readMem s.sp else s.sp := by
  rw [popBase, hr]
  exact if_congr Fin.ext_iff rfl rfl

/-- Each meaning makes its checks in the order of the rules' tables (rules R85 to R87). -/
theorem decidedBy_laterCheck (s : State) (o : Opcode) (a b : Byte) :
    DecidedBy s (instrOf o a b) (laterCheck s o a b) := by
  rw [laterCheck, registerCheck_byte, stackCheck_byte, followingCheck_byte]
  cases o with
  | halt => exact .completes .halt
  | prn =>
    exact .bind rfl fun r hr h => .last h fun p hp => ⟨_, .prn (regOperand_eq_ok.1 hr) (nextPc_eq_ok.1 hp)⟩
  | ldi =>
    exact .bind rfl fun r hr h => .last h fun p hp => ⟨_, .ldi (regOperand_eq_ok.1 hr) (nextPc_eq_ok.1 hp)⟩
  | add => exact decidedBy_of_aluInstr rfl fun _ _ _ ha hb hp => ⟨_, .add ha hb hp⟩
  | mul => exact decidedBy_of_aluInstr rfl fun _ _ _ ha hb hp => ⟨_, .mul ha hb hp⟩
  | cmp => exact decidedBy_of_aluInstr rfl fun _ _ _ ha hb hp => ⟨_, .cmp ha hb hp⟩
  | push =>
    exact .bind rfl fun r hr h => .bind h fun sp' hsp h => .last h fun p hp =>
      ⟨_, .push (regOperand_eq_ok.1 hr) hsp (nextPc_eq_ok.1 hp)⟩
  | pop =>
    refine .bind rfl fun r hr h => ?_
    rw [regOperand_eq_ok] at hr
    rw [← popBase_of_operand hr]
    exact .bind h fun sp' hsp h => .last h fun p hp => ⟨_, .pop hr hsp (nextPc_eq_ok.1 hp)⟩
  | call =>
    exact .bind rfl fun r hr h => .bind h fun sp' hsp h => .last h fun p hp =>
      ⟨_, .call (regOperand_eq_ok.1 hr) hsp (followingPc_eq_ok.1 hp)⟩
  | ret => exact .bind rfl fun sp' hsp _ => .completes (.ret hsp)
  | jeq => exact decidedBy_of_jumpIf rfl (fun _ => .jeqTaken) fun _ _ => .jeqUntaken
  | jne =>
    exact decidedBy_of_jumpIf (cond := fun fl => !flagE fl) rfl (fun _ hr he => .jneTaken hr (by simpa using he))
      fun _ _ hr he => .jneUntaken hr (by simpa using he)
  | jmp => exact .bind rfl fun r hr _ => .completes (.jmp (regOperand_eq_ok.1 hr))

/-! ## The first of the five checks that fails decides the step -/

theorem failedCheck_of_not_opcode (h : lengthOfOpcode (s.readMem s.pc) = none) :
    failedCheck s = some (.invalidOpcode (s.readMem s.pc) s.pc) := by
  simp only [failedCheck, h]

theorem failedCheck_of_opcode {len : Nat} (h : lengthOfOpcode (s.readMem s.pc) = some len) :
    failedCheck s = (operandCheck s len).or
      ((registerCheck (s.readMem s.pc) (s.readMem (s.pc + 1)) (s.readMem (s.pc + 2)) len).or
        ((stackCheck s (s.readMem s.pc) (s.readMem (s.pc + 1))).or (followingCheck s (s.readMem s.pc) len))) := by
  simp only [failedCheck, h]

/-- Where fetch answers an error, it is that of the first failing check; where it answers an instruction, checks 1
and 2 pass. -/
theorem fetch_cases (s : State) :
    (∃ e, failedCheck s = some e ∧ fetch s = .error e) ∨
      ∃ o a b, s.readMem s.pc = o.byte ∧ failedCheck s = laterCheck s o a b ∧ fetch s = .ok (instrOf o a b) := by
  cases hlen : lengthOfOpcode (s.readMem s.pc) with
  | none => exact .inl ⟨_, failedCheck_of_not_opcode hlen, fetch_invalidOpcode hlen⟩
  | some len =>
    by_cases habove : s.pc.toNat + len > 256
    · have hcheck : operandCheck s len = some (.addressError .operand 256) := if_pos (by omega)
      exact .inl ⟨_, by rw [failedCheck_of_opcode hlen, hcheck]; rfl, fetch_operand_above hlen habove⟩
    · obtain ⟨o, hop, rfl⟩ : ∃ o, Opcode.ofByte? (s.readMem s.pc) = some o ∧ o.length = len := by
        simpa [lengthOfOpcode_eq] using hlen
      have hop := ofByte?_eq_some.1 hop
      have hcheck : operandCheck s o.length = none := if_neg (by omega)
      exact .inr ⟨o, _, _, hop, by rw [failedCheck_of_opcode hlen, hcheck, hop]; rfl, fetch_of_opcode hop (by omega)⟩

/-- A completed instruction halts exactly where it is HALT. -/
theorem Completes.halted_iff (hrun : s.run = .running) (h : Completes s i t) : t.run = .halted ↔ i = .halt := by
  obtain ⟨rfl, rfl⟩ | ⟨hi, ht⟩ := h.run_cases
  · exact iff_of_true rfl rfl
  · exact iff_of_false (by simp [ht, hrun]) hi

/-- Settles O14: fetch makes checks 1 and 2, and the instruction fetched makes checks 3 to 5. -/
theorem theFirstFailedCheckDecidesTheStep : Obligations.TheFirstFailedCheckDecidesTheStep := by
  intro s hrun
  obtain ⟨e, hcheck, hf⟩ | ⟨o, a, b, hop, hcheck, hf⟩ := fetch_cases s
  · rw [hcheck, step_of_fetch_error hrun hf]
    refine ⟨?_, nofun⟩
    rintro _ ⟨⟩
    exact ⟨_, rfl, rfl⟩
  · have hdecided : DecidedBy s (instrOf o a b) (failedCheck s) := hcheck ▸ decidedBy_laterCheck s o a b
    rw [step_of_fetch_ok hrun hf]
    generalize failedCheck s = c at hdecided
    cases hdecided with
    | raises h =>
      refine ⟨?_, nofun⟩
      rintro _ ⟨⟩
      exact faultedWith_of_exec_eq_raise h
    | completes h =>
      refine ⟨nofun, fun _ => ⟨_, h.exec, h.isSafe hrun, ?_⟩⟩
      rw [h.halted_iff hrun, hop, instrOf_eq_halt]

end Sys2Proof.Machine
end

section
/-! The system and jump forms: what HALT, PRN and the jumps leave unchanged, and what PRN appends. -/

namespace Sys2Proof.Machine

variable {s t : State} {i : Instr}

/-- Every instruction keeps what the output trace held (10_state.md rule R31). -/
theorem exec_out_prefix (h : exec i s = .next t) : s.out <+: t.out := by
  obtain ho | ⟨-, v, ho⟩ := exec_out_cases h
  · rw [ho]
  · rw [ho]; exact List.prefix_append _ _

/-- Settles O36: `writtenRegs` lists no register for the five forms, none of them writes memory or the flags, and
PRN alone writes the output. -/
theorem frameOfTheSystemAndJumpForms : Obligations.FrameOfTheSystemAndJumpForms := by
  intro s t b
  constructor
  · rintro (h | h | h | h | h) <;>
      exact ⟨exec_sameRegsBut h, exec_fl_eq (by simp) h, exec_sameMemory (by simp) h, exec_out_prefix h⟩
  · rintro (h | h | h | h) <;> exact exec_out_eq (by simp) h

/-- Settles O21: the PRN completes, appending the register's value and moving to the following address. -/
theorem prnAppendsTheRegisterToTheOutput : Obligations.PrnAppendsTheRegisterToTheOutput := by
  intro s b r hb hpc
  obtain ⟨p, hp⟩ := exists_following hpc
  exact ⟨_, (Completes.prn hb hp).exec, rfl, hp, fun _ => rfl, fun _ _ => rfl, rfl, rfl⟩

end Sys2Proof.Machine
end

section
/-! The ALU: the arithmetic of ADD and MUL, and a conditional jump after a CMP. -/

namespace Sys2Proof.Machine

variable {s t : State} {a b : Reg}

/-! ## ADD and MUL -/

theorem toNat_readReg_alu_add : ((alu .add a b s).readReg a).toNat =
    ((s.readReg a).toNat + (s.readReg b).toNat) % 256 := by
  rw [readReg_alu_add, if_pos rfl, trunc8_toNat]

theorem toNat_readReg_alu_mult : ((alu .mult a b s).readReg a).toNat =
    ((s.readReg a).toNat * (s.readReg b).toNat) % 256 := by
  rw [readReg_alu_mult, if_pos rfl, trunc8_toNat]

/-- ADD and MULT write their first register alone; CMP writes none. -/
theorem sameRegsBut_alu (op : AluOp) (a b : Reg) (s : State) : SameRegsBut [a.val] s (alu op a b s) := by
  cases op with
  | add | mult => exact sameRegsBut_setReg s _ (List.mem_singleton_self a.val)
  | cmp => exact fun _ _ => rfl

/-- Settles O23: both instructions complete, and their one register write is truncated to 8 bits. -/
theorem addAndMulKeepTheResultModulo256 : Obligations.AddAndMulKeepTheResultModulo256 := by
  intro s ba bb a b ha hb hpc
  obtain ⟨p, hp⟩ := exists_following hpc
  exact ⟨⟨_, (Completes.add ha hb hp).exec, toNat_readReg_alu_add, sameRegsBut_alu .add a b s, hp, fun _ => rfl, rfl,
      rfl, rfl⟩,
    ⟨_, (Completes.mul ha hb hp).exec, toNat_readReg_alu_mult, sameRegsBut_alu .mult a b s, hp, fun _ => rfl, rfl,
      rfl, rfl⟩⟩

/-! ## Two ADDs that restore a register -/

/-- Two states that agree on every register but one, and on that one too, agree on all. -/
theorem sameRegsBut_nil_of_singleton (hrest : SameRegsBut [a.val] s t) (ha : t.readReg a = s.readReg a) :
    SameRegsBut [] s t := by
  intro r _
  by_cases hr : r = a
  · rw [hr, ha]
  · exact hrest r fun hmem => hr (Fin.ext (List.mem_singleton.1 hmem))

/-- Settles O43: the second ADD reads its operand as it was before the first, so the two together add 256, which is 0
modulo 256 (rule R110). -/
theorem addingAValueAndItsComplementRestoresTheRegister :
    Obligations.AddingAValueAndItsComplementRestoresTheRegister := by
  intro s ba bb bc a b c ha hb hc _ hca hsum hpc
  obtain ⟨t, ht, htval, htregs, htpc, -⟩ := (addAndMulKeepTheResultModulo256 s ba bb a b ha hb (by omega)).1
  have htpc : t.pc.toNat = s.pc.toNat + 3 := htpc
  obtain ⟨u, hu, huval, huregs, hupc, -⟩ := (addAndMulKeepTheResultModulo256 t ba bc a c ha hc (by omega)).1
  have hupc : u.pc.toNat = t.pc.toNat + 3 := hupc
  have htc : t.readReg c = s.readReg c := htregs c fun hmem => hca (Fin.ext (List.mem_singleton.1 hmem))
  have hua : u.readReg a = s.readReg a := BitVec.eq_of_toNat_eq <|
    calc (u.readReg a).toNat
        = (((s.readReg a).toNat + (s.readReg b).toNat) % 256 + (s.readReg c).toNat) % 256 := by rw [huval, htval, htc]
      _ = (s.readReg a).toNat := by omega
  refine ⟨t, u, ht, hu, sameRegsBut_nil_of_singleton (htregs.trans huregs) hua, ?_⟩
  show u.pc.toNat = s.pc.toNat + 6
  omega

/-! ## A conditional jump after a CMP -/

/-- CMP sets E exactly where the compared values are equal (rule R108). -/
theorem flagE_compareFlags {v w : Byte} : flagE (compareFlags v w) = true ↔ v = w :=
  (compareFlags_bits v w).1.trans BitVec.toNat_inj

/-- What a CMP that completes leaves for a jump after it to read. -/
theorem exec_cmp_of_checks {regA regB p : Byte} (ha : regA.toNat = a.val) (hb : regB.toNat = b.val)
    (hp : p.toNat = s.pc.toNat + 3) (h : exec (.cmp regA regB) s = .next t) :
    t.pc = p ∧ (∀ r, t.readReg r = s.readReg r) ∧ (flagE t.fl = true ↔ s.readReg a = s.readReg b) := by
  obtain rfl := Host.Outcome.next.inj ((Completes.cmp ha hb hp).exec.symm.trans h)
  exact ⟨rfl, fun _ => rfl, flagE_compareFlags⟩

/-- Settles O42: the CMP leaves E as the equality of its registers, which each jump then tests; the jump not taken
moves past its own two bytes. -/
theorem aJumpAfterACompareFollowsEquality : Obligations.AJumpAfterACompareFollowsEquality := by
  intro s t ba bb bc a b c ha hb hc hpc h
  obtain ⟨p, hp⟩ := exists_following (s := s) (len := 3) (by omega)
  obtain ⟨rfl, hregs, hE⟩ := exec_cmp_of_checks ha hb hp h
  have hfall : (s.pc + 5).toNat = t.pc.toNat + 2 := by bv_omega
  rw [← hregs c]
  refine ⟨fun heq => ?_, fun hne => ?_⟩
  · have hset : flagE t.fl = true := hE.2 heq
    exact ⟨(Completes.jeqTaken hc hset).exec, (Completes.jneUntaken hc hset hfall).exec⟩
  · have hclear : flagE t.fl = false := Bool.eq_false_iff.2 (mt hE.1 hne)
    exact ⟨(Completes.jneTaken hc hclear).exec, (Completes.jeqUntaken hc hclear hfall).exec⟩

end Sys2Proof.Machine
end

section
/-! The stack: what PUSH, POP, CALL and RET do, what they leave unchanged, and a POP after a PUSH. -/

namespace Sys2Proof.Machine

variable {s t : State} {i : Instr} {a : Byte}

/-! ## Frames -/

/-- Where the stack pointer can be decremented, no instruction writes a cell other than the one below it. -/
theorem exec_sameMemoryBut (ha : spDecrement s.sp = .ok a) (h : exec i s = .next t) : SameMemoryBut a s t := by
  intro c hc
  obtain hm | ⟨-, a', v, ha', hm⟩ := exec_mem_cases h
  · exact sameMemory_of_mem_eq hm c
  · obtain rfl : a = a' := Except.ok.inj (ha.symm.trans ha')
    calc t.readMem c = (s.writeMem a v).readMem c := by rw [State.readMem, State.readMem, hm, writeMem_mem]
      _ = s.readMem c := readMem_writeMem_other s a v c hc

/-- Where the decrement of the stack pointer faults, no instruction writes memory. -/
theorem exec_sameMemory_of_spDecrement_error {e : FatalError} (he : spDecrement s.sp = .error e)
    (h : exec i s = .next t) : SameMemory s t := by
  obtain hm | ⟨-, a, v, ha, -⟩ := exec_mem_cases h
  · exact sameMemory_of_mem_eq hm
  · exact nomatch he.symm.trans ha

/-- Settles O37: `writtenRegs` lists the registers of the two forms, and neither is one that writes memory, the flags
or the output. -/
theorem frameOfTheStackReadingForms : Obligations.FrameOfTheStackReadingForms := by
  intro s t b
  refine ⟨exec_sameRegsBut, exec_sameRegsBut, ?_⟩
  rintro (h | h) <;> exact ⟨exec_fl_eq (by simp) h, exec_sameMemory (by simp) h, exec_out_eq (by simp) h⟩

/-- Settles O38: the two forms write the stack pointer alone among the registers, and memory only at the decremented
stack pointer. -/
theorem frameOfTheStackWritingForms : Obligations.FrameOfTheStackWritingForms := by
  rintro s t b (h | h) <;>
    exact ⟨exec_sameRegsBut h, exec_fl_eq (by simp) h, exec_out_eq (by simp) h, fun _ ha => exec_sameMemoryBut ha h,
      fun _ he => exec_sameMemory_of_spDecrement_error he h⟩

/-! ## Effects -/

/-- Settles O25: the PUSH completes; the register it stores is read after the decrement (D18). -/
theorem pushStoresTheRegisterBelowTheStackPointer : Obligations.PushStoresTheRegisterBelowTheStackPointer := by
  intro s b r hwf hb hsp hpc
  obtain ⟨a, ha⟩ := spDecrement_is_ok hsp
  obtain ⟨p, hp⟩ := exists_following hpc
  have hexec := (Completes.push hb ha hp).exec
  exact ⟨a, _, ha, spDecrement_eq_ok.1 ha, hexec, (sp_setPc _ p).trans (sp_pushAt s a _),
    (readMem_pushAt_same s a _ hwf).trans (readReg_setSp s a r), exec_sameMemoryBut ha hexec, exec_sameRegsBut hexec,
    hp, rfl, rfl, rfl⟩

/-- Settles O27: the CALL completes; the register it jumps to is read after the decrement (D20). -/
theorem callPushesTheReturnAddressAndJumps : Obligations.CallPushesTheReturnAddressAndJumps := by
  intro s b r hwf hb hsp hpc
  obtain ⟨a, ha⟩ := spDecrement_is_ok hsp
  obtain ⟨p, hp⟩ := exists_following hpc
  have hexec := (Completes.call hb ha hp).exec
  have hcell : (pushAt s a p).readMem a = p := readMem_pushAt_same s a p hwf
  exact ⟨a, _, ha, spDecrement_eq_ok.1 ha, hexec, sp_pushAt s a p, (congrArg BitVec.toNat hcell).trans hp,
    readReg_setSp s a r, exec_sameMemoryBut ha hexec, exec_sameRegsBut hexec, rfl, rfl, rfl⟩

/-- Settles O26: the POP completes; its register is loaded first, so that a POP into the stack pointer increments the
loaded byte (D19). -/
theorem popLoadsTheRegisterAndIncrementsTheStackPointer :
    Obligations.PopLoadsTheRegisterAndIncrementsTheStackPointer := by
  intro s b r hb hbase hpc
  obtain ⟨a, ha⟩ := spIncrement_is_ok (v := popBase s r) hbase
  obtain ⟨p, hp⟩ := exists_following hpc
  have hexec := (Completes.pop hb ha hp).exec
  have hsp : a.toNat = (popBase s r).toNat + 1 := spIncrement_eq_ok.1 ha
  have hregs := exec_sameRegsBut hexec
  rw [writtenRegs, hb] at hregs
  refine ⟨_, hexec, fun hr => ⟨?_, ?_⟩, fun hr => ?_, hregs, hp, fun _ => rfl, rfl, rfl, rfl⟩
  · rw [readReg_setPc, readReg_setSp, if_neg hr, readReg_setReg_same]
  · rw [sp_setPc, sp_setSp, hsp, popBase, if_neg hr]
  · rw [sp_setPc, sp_setSp, hsp, popBase, if_pos hr]

/-- Settles O28: the RET completes, jumping to the byte that was at the stack pointer. -/
theorem retPopsTheProgramCounter : Obligations.RetPopsTheProgramCounter := by
  intro s hsp
  obtain ⟨a, ha⟩ := spIncrement_is_ok hsp
  have hexec := (Completes.ret ha).exec
  have hspa : ((s.setSp a).setPc (s.readMem s.sp)).sp = a := sp_setSp s a
  exact ⟨_, hexec, rfl, (congrArg BitVec.toNat hspa).trans (spIncrement_eq_ok.1 ha), exec_sameRegsBut hexec,
    fun _ => rfl, rfl, rfl, rfl⟩

/-! ## A POP after a PUSH -/

theorem SameRegsBut.mono {ns ns' : List Nat} (h : SameRegsBut ns s t) (hns : ns ⊆ ns') : SameRegsBut ns' s t :=
  fun r hr => h r fun hmem => hr (hns hmem)

/-- Two states that agree on every register but one and the stack pointer, and on the stack pointer too, agree on
every register but the one. -/
theorem SameRegsBut.of_sp_eq {n : Nat} (h : SameRegsBut [n, config.spIndex.val] s t) (hsp : t.sp = s.sp) :
    SameRegsBut [n] s t := by
  intro r hr
  by_cases hri : r = config.spIndex
  · rw [hri]; exact hsp
  · refine h r fun hmem => ?_
    obtain hn | hi := List.mem_pair.1 hmem
    · exact hr (List.mem_singleton.2 hn)
    · exact hri (Fin.ext hi)

/-- Settles O39: the POP reads the cell the PUSH has stored, at the stack pointer the PUSH has left, and its increment
undoes the decrement (rule R118). -/
theorem pushThenPopMovesTheValueAndRestoresTheStackPointer :
    Obligations.PushThenPopMovesTheValueAndRestoresTheStackPointer := by
  intro s b₁ b₂ r₁ r₂ hwf hb₁ hb₂ hr₁ hr₂ hsp hpc
  obtain ⟨a, t, -, hdec, ht, htsp, hcell, htmem, htregs, htpc, -⟩ :=
    pushStoresTheRegisterBelowTheStackPointer s b₁ r₁ hwf hb₁ hsp (by omega)
  have htpc : t.pc.toNat = s.pc.toNat + 2 := htpc
  have hbase : (if r₂ = config.spIndex then t.readMem t.sp else t.sp) ≠ 255 := by rw [if_neg hr₂, htsp]; bv_omega
  obtain ⟨u, hu, hload, -, huregs, hupc, humem, -⟩ :=
    popLoadsTheRegisterAndIncrementsTheStackPointer t b₂ r₂ hb₂ hbase (by omega)
  obtain ⟨hval, hinc⟩ := hload hr₂
  have hupc : u.pc.toNat = t.pc.toNat + 2 := hupc
  have ha : s.sp - 1 = a := by bv_omega
  rw [if_neg hr₁] at hcell
  have husp : u.sp = s.sp := BitVec.eq_of_toNat_eq (by rw [hinc, htsp, hdec])
  have hregs : SameRegsBut [r₂.val, config.spIndex.val] s u := (htregs.mono (List.subset_cons_self _ _)).trans huregs
  rw [ha]
  refine ⟨t, u, ht, hu, hval.trans (by rw [htsp, hcell]), husp, hregs.of_sp_eq husp, (humem a).trans hcell,
    fun c hc => (humem c).trans (htmem c hc), ?_⟩
  show u.pc.toNat = s.pc.toNat + 4
  omega

end Sys2Proof.Machine
end

section
/-! Control transfer: the jumps, and a RET after a CALL. -/

namespace Sys2Proof.Machine

/-! ## The jumps -/

/-- Settles O30: JMP makes check 3 alone, so it completes from any address. -/
theorem jmpJumpsToTheRegister : Obligations.JmpJumpsToTheRegister :=
  fun _ _ _ hb => (Completes.jmp hb).exec

/-- Settles O29: on either value of E one of the two jumps is taken, with no check 5, and the other moves past its own
two bytes. -/
theorem jeqAndJneJumpOnComplementaryConditions : Obligations.JeqAndJneJumpOnComplementaryConditions := by
  intro s b r hb
  have hfall (hpc : s.pc.toNat + 2 ≤ 255) : (s.pc + 2).toNat = s.pc.toNat + 2 := by bv_omega
  constructor
  · intro (hset : flagE s.fl = true)
    exact ⟨(Completes.jeqTaken hb hset).exec, fun hpc => (Completes.jneUntaken hb hset (hfall hpc)).exec⟩
  · intro (hclear : flagE s.fl = false)
    exact ⟨(Completes.jneTaken hb hclear).exec, fun hpc => (Completes.jeqUntaken hb hclear (hfall hpc)).exec⟩

/-! ## A RET after a CALL -/

/-- Settles O40: the RET reads the return address from the cell the CALL has stored, and its increment undoes the
CALL's decrement (rule R131), so that it cannot fault. -/
theorem callThenReturnResumesAfterTheCall : Obligations.CallThenReturnResumesAfterTheCall := by
  intro s b r hwf hb hsp hpc
  obtain ⟨a, t, -, hdec, ht, htsp, hcell, -⟩ := callPushesTheReturnAddressAndJumps s b r hwf hb hsp hpc
  refine ⟨t, ht, fun u husp hucell => ?_⟩
  have hua : u.sp = a := husp.trans htsp
  obtain ⟨v, hv, hvpc, hinc, hregs, -⟩ := retPopsTheProgramCounter u (by bv_omega)
  have hret : v.pc.toNat = s.pc.toNat + 2 := by rw [hvpc, hucell, htsp, hcell]
  have hvsp : v.sp = s.sp := BitVec.eq_of_toNat_eq (by rw [hinc, hua, hdec])
  exact ⟨v, hv, hret, hvsp, hregs⟩

end Sys2Proof.Machine
end

section
/-! The loader: which lines give a byte, and the failures that end a load. -/

namespace Sys2Proof.Machine

variable {l : Line} {f : LoadFailure}

/-! ## The characters of a line -/

theorem isByteLine_iff : isByteLine l = true ↔ l.head? = some '0' ∨ l.head? = some '1' := by
  cases l <;> simp [isByteLine]

theorem binaryDigit?_eq_none {c : Char} (h0 : c ≠ '0') (h1 : c ≠ '1') : binaryDigit? c = none := by
  rw [binaryDigit?, if_neg h0, if_neg h1]

theorem binaryDigit?_is_some {c : Char} (h : c = '0' ∨ c = '1') : ∃ d, binaryDigit? c = some d := by
  obtain rfl | rfl := h
  · exact ⟨0, rfl⟩
  · exact ⟨1, rfl⟩

/-- Too short a line ends before its last digit (D24). -/
theorem binaryValue?_of_short : ∀ {n : Nat} (acc : Nat) {l : Line}, l.length < n → binaryValue? n acc l = none
  | _ + 1, _, [], _ => rfl
  | n + 1, acc, c :: cs, h => by
    unfold binaryValue?
    split
    · exact binaryValue?_of_short _ (Nat.lt_of_succ_lt_succ h)
    · rfl

/-- A character that is no binary digit, whichever of the first `n` it is, leaves no value (rule R178). -/
theorem binaryValue?_of_nondigit {x : Char} (hx : binaryDigit? x = none) :
    ∀ {n k : Nat} (acc : Nat) {l : Line}, k < n → l[k]? = some x → binaryValue? n acc l = none
  | _ + 1, 0, acc, c :: cs, _, hk => by
    obtain rfl : c = x := Option.some.inj hk
    rw [binaryValue?, hx]
  | n + 1, k + 1, acc, c :: cs, hkn, hk => by
    unfold binaryValue?
    split
    · exact binaryValue?_of_nondigit hx _ (Nat.lt_of_succ_lt_succ hkn) hk
    · rfl

/-- Binary digits have a value, whatever follows them (rule R176). -/
theorem binaryValue?_of_digits (tail : Line) : ∀ (acc : Nat) {cs : Line}, (∀ c ∈ cs, c = '0' ∨ c = '1') →
    ∃ v, binaryValue? cs.length acc (cs ++ tail) = some v
  | acc, [], _ => ⟨acc, rfl⟩
  | acc, c :: cs, h => by
    obtain ⟨hc, hcs⟩ := List.forall_mem_cons.1 h
    obtain ⟨d, hd⟩ := binaryDigit?_is_some hc
    obtain ⟨v, hv⟩ := binaryValue?_of_digits tail (2 * acc + d) hcs
    refine ⟨v, ?_⟩
    rw [List.length_cons, List.cons_append, binaryValue?, hd]
    exact hv

/-! ## The byte of a line -/

theorem parseByte?_of_malformed (h : l.length < 8 ∨ ∃ k c, k < 8 ∧ l[k]? = some c ∧ c ≠ '0' ∧ c ≠ '1') :
    parseByte? l = none := by
  obtain hshort | ⟨k, c, hk, hc, h0, h1⟩ := h
  · rw [parseByte?, binaryValue?_of_short 0 hshort, Option.map_none]
  · rw [parseByte?, binaryValue?_of_nondigit (binaryDigit?_eq_none h0 h1) 0 hk hc, Option.map_none]

theorem parseByte?_of_digits {cs : Line} (tail : Line) (hcs : ∀ c ∈ cs, c = '0' ∨ c = '1') (hlen : cs.length = 8) :
    ∃ b, parseByte? (cs ++ tail) = some b := by
  obtain ⟨v, hv⟩ := binaryValue?_of_digits tail 0 hcs
  rw [hlen] at hv
  exact ⟨BitVec.ofNat 8 v, by rw [parseByte?, hv, Option.map_some]⟩

theorem isByteLine_of_digits {cs : Line} (tail : Line) (hcs : ∀ c ∈ cs, c = '0' ∨ c = '1') (hne : cs ≠ []) :
    isByteLine (cs ++ tail) = true := by
  obtain ⟨c, cs, rfl⟩ := List.exists_cons_of_ne_nil hne
  exact isByteLine_iff.2 ((hcs c List.mem_cons_self).imp (congrArg some) (congrArg some))

/-! ## The failures -/

theorem parseLines_malformed (a : Nat) (ls : List Line) (hl : isByteLine l = true) (hb : parseByte? l = none) :
    parseLines a (l :: ls) = .error .parseError := by
  rw [parseLines, if_pos hl, hb]

theorem parseLines_past_end {a : Nat} {b : Byte} (ls : List Line) (hl : isByteLine l = true)
    (hb : parseByte? l = some b) (ha : a > 255) : parseLines a (l :: ls) = .error (.addressError a) := by
  rw [parseLines, if_pos hl, hb]
  exact if_pos ha

theorem launch_of_parseLines_error {ls : List Line} (h : parseLines 0 ls = .error f) : launch (some ls) = .error f := by
  rw [launch, h]

/-- Settles O9: a binary line that is malformed or short gives no byte, one of eight digits gives a byte that has no
cell past address 255, and a failure among the lines is the load's. -/
theorem malformedProgramFilesDoNotLoad : Obligations.MalformedProgramFilesDoNotLoad := by
  refine ⟨rfl, fun a l ls hhead hbad => ?malformed, fun a bits tail ls ha hlen => ?pastEnd,
    fun _ _ => launch_of_parseLines_error⟩
  case malformed => exact parseLines_malformed a ls (isByteLine_iff.2 hhead) (parseByte?_of_malformed hbad)
  case pastEnd =>
    have hdigits : ∀ c ∈ bits.map (fun d => if d then '1' else '0'), c = '0' ∨ c = '1' :=
      List.forall_mem_map.2 fun d _ => by cases d <;> decide
    have hlen : (bits.map (fun d => if d then '1' else '0')).length = 8 := List.length_map .. |>.trans hlen
    obtain ⟨b, hb⟩ := parseByte?_of_digits tail hdigits hlen
    exact parseLines_past_end ls (isByteLine_of_digits tail hdigits (List.ne_nil_of_length_eq_add_one hlen)) hb ha

end Sys2Proof.Machine
end

section
/-! The loader: the byte that eight binary digits write, and the cell it reaches. -/

namespace Sys2Proof.Machine

variable {l : Line}

/-! ## The number that binary digits write -/

/-- Bits as the characters of a line. -/
def digitsOf (bits : List Bool) : Line := bits.map (fun d => if d then '1' else '0')

/-- The number that bits write, most significant first, onto the number `acc` of the bits before them. -/
def valueOfBits (acc : Nat) (bits : List Bool) : Nat := bits.foldl (fun v d => Nat.bit d v) acc

theorem mem_digitsOf (bits : List Bool) : ∀ c ∈ digitsOf bits, c = '0' ∨ c = '1' :=
  List.forall_mem_map.2 fun d _ => by cases d <;> decide

theorem binaryDigit?_digit (d : Bool) : binaryDigit? (if d then '1' else '0') = some d.toNat := by
  cases d <;> rfl

theorem binaryValue?_digitsOf (tail : Line) : ∀ (acc : Nat) (bits : List Bool),
    binaryValue? bits.length acc (digitsOf bits ++ tail) = some (valueOfBits acc bits)
  | _, [] => rfl
  | acc, d :: bits => by
    rw [digitsOf, List.map_cons, List.cons_append, List.length_cons, binaryValue?, binaryDigit?_digit]
    show binaryValue? bits.length (2 * acc + d.toNat) (digitsOf bits ++ tail) = _
    rw [← Nat.bit_val]
    exact binaryValue?_digitsOf tail (Nat.bit d acc) bits

/-- The number of the bits before `bits` stands above them. -/
theorem testBit_valueOfBits_above (j : Nat) : ∀ (acc : Nat) (bits : List Bool),
    (valueOfBits acc bits).testBit (bits.length + j) = acc.testBit j
  | _, [] => by rw [List.length_nil, Nat.zero_add]; rfl
  | acc, d :: bits => by
    rw [List.length_cons, Nat.add_right_comm]
    exact (testBit_valueOfBits_above (j + 1) (Nat.bit d acc) bits).trans (Nat.testBit_bit_succ j d acc)

/-- The first bit is the most significant one (rule R176). -/
theorem testBit_valueOfBits : ∀ (acc : Nat) (bits : List Bool) {k : Nat}, k < bits.length →
    (valueOfBits acc bits).testBit (bits.length - 1 - k) = bits.getD k false
  | acc, d :: bits, 0, _ =>
    (testBit_valueOfBits_above 0 (Nat.bit d acc) bits).trans (Nat.testBit_bit_zero d acc)
  | acc, d :: bits, k + 1, hk => by
    have hindex : (d :: bits).length - 1 - (k + 1) = bits.length - 1 - k := by rw [List.length_cons]; omega
    rw [hindex, List.getD_cons_succ]
    exact testBit_valueOfBits (Nat.bit d acc) bits (Nat.lt_of_succ_lt_succ hk)

theorem parseByte?_digitsOf {bits : List Bool} (tail : Line) (hlen : bits.length = 8) :
    parseByte? (digitsOf bits ++ tail) = some (BitVec.ofNat 8 (valueOfBits 0 bits)) := by
  have hval := binaryValue?_digitsOf tail 0 bits
  rw [hlen] at hval
  rw [parseByte?, hval, Option.map_some]

/-- Bit 7 of the byte that eight bits write is the first of them (rule R176). -/
theorem getLsbD_ofNat_valueOfBits {bits : List Bool} {k : Nat} (hlen : bits.length = 8) (hk : k < 8) :
    (BitVec.ofNat 8 (valueOfBits 0 bits)).getLsbD (7 - k) = bits.getD k false := by
  have hbit := testBit_valueOfBits 0 bits (hlen.symm ▸ hk)
  rw [hlen] at hbit
  rw [BitVec.getLsbD_ofNat, hbit, decide_eq_true (by omega), Bool.true_and]

/-! ## The lines -/

theorem parseLines_skipped (a : Nat) (ls : List Line) (hl : ¬ isByteLine l = true) :
    parseLines a (l :: ls) = parseLines a ls := by
  rw [parseLines, if_neg hl]

theorem parseLines_byte {a : Nat} {b : Byte} (ls : List Line) (hl : isByteLine l = true) (hb : parseByte? l = some b)
    (ha : a ≤ 255) : parseLines a (l :: ls) = (parseLines (a + 1) ls).map (b :: ·) := by
  rw [parseLines, if_pos hl, hb]
  exact if_neg (by omega)

/-- A byte line at the front of accepted lines has a cell for its byte, and the lines after it are accepted. -/
theorem parseLines_cons_eq_ok {a : Nat} {ls : List Line} {image : List Byte} (hl : isByteLine l = true)
    (h : parseLines a (l :: ls) = .ok image) :
    a ≤ 255 ∧ ∃ b rest, parseLines (a + 1) ls = .ok rest ∧ image = b :: rest := by
  cases hb : parseByte? l with
  | none => cases (parseLines_malformed a ls hl hb).symm.trans h
  | some b =>
    obtain hend | hroom := Nat.lt_or_ge 255 a
    · cases (parseLines_past_end ls hl hb hend).symm.trans h
    · rw [parseLines_byte ls hl hb hroom] at h
      cases hrest : parseLines (a + 1) ls with
      | error f => rw [hrest] at h; cases h
      | ok rest => rw [hrest] at h; exact ⟨hroom, b, rest, rfl, (Except.ok.inj h).symm⟩

/-- The lines place no byte above address 255 (rule R179). -/
theorem parseLines_fits : ∀ {a : Nat} {ls : List Line} {image : List Byte}, a ≤ 256 →
    parseLines a ls = .ok image → a + image.length ≤ 256
  | a, [], image, ha, h => by
    obtain rfl : [] = image := Except.ok.inj h
    exact ha
  | a, l :: ls, image, ha, h => by
    by_cases hl : isByteLine l = true
    · obtain ⟨hroom, b, rest, hrest, rfl⟩ := parseLines_cons_eq_ok hl h
      have hfits := parseLines_fits (Nat.succ_le_succ hroom) hrest
      rw [List.length_cons]
      omega
    · exact parseLines_fits ha ((parseLines_skipped a ls hl).symm.trans h)

theorem launch_of_parseLines_ok {ls : List Line} {image : List Byte} (h : parseLines 0 ls = .ok image) :
    launch (some ls) = loadImage image := by
  rw [launch, h]

/-- Settles O8: the bits of a line's eight digits are the byte's, and an accepted file's bytes fit in memory, so that
its image loads from address 0 (O7). -/
theorem aProgramFileGivesOneByteForEachBinaryLine : Obligations.AProgramFileGivesOneByteForEachBinaryLine := by
  refine ⟨fun _ => rfl, fun a l ls h0 h1 => ?skipped, fun a bits tail ls ha hlen => ?byte,
    fun ls image himage => ?launched⟩
  case skipped => exact parseLines_skipped a ls fun hl => (isByteLine_iff.1 hl).elim h0 h1
  case byte =>
    have hne : digitsOf bits ≠ [] := List.ne_nil_of_length_eq_add_one (List.length_map .. |>.trans hlen)
    exact ⟨_, fun k hk => getLsbD_ofNat_valueOfBits hlen hk,
      parseLines_byte ls (isByteLine_of_digits tail (mem_digitsOf bits) hne) (parseByte?_digitsOf tail hlen) ha⟩
  case launched =>
    have hfits := parseLines_fits (Nat.zero_le _) himage
    obtain ⟨s, hload, -, -, hread⟩ := (anImageLoadsFromAddressZero image).1 (by omega)
    refine ⟨s, (launch_of_parseLines_ok himage).trans hload, fun k b hb => ?_⟩
    obtain ⟨hk, -⟩ := List.getElem?_eq_some_iff.1 hb
    have haddr : (BitVec.ofNat 8 k).toNat = k := BitVec.toNat_ofNat .. |>.trans (Nat.mod_eq_of_lt (by omega))
    rw [hread, haddr, List.getD_eq_getElem?_getD, hb, Option.getD_some]

end Sys2Proof.Machine
end

section
/-! The ends of a run: the reset state it starts from, the HALT that stops it, and the exit statuses of its outcomes. -/

namespace Sys2Proof.Machine

variable {s : State}

/-! ## Reset -/

/-- Every general register holds `REG_RESET` (rule R33). -/
theorem readReg_reset (r : Reg) : State.reset.readReg r = config.regReset :=
  Vector.getElem_replicate r.isLt

/-- Every cell reads as `MEM_RESET`, for the reset memory lists none (rule R33). -/
theorem readMem_reset (a : Byte) : State.reset.readMem a = config.memReset := rfl

/-- `FL_RESET` is one of the four values the flags register may hold (rule R28). -/
theorem flagsLegal_reset : flagsLegal State.reset.fl = true := rfl

/-- Settles O5: every register and every cell holds its reset value, and each is 0 in this configuration. -/
theorem resetStateIsAllZeroAndRunning : Obligations.ResetStateIsAllZeroAndRunning :=
  ⟨readReg_reset, readMem_reset, rfl, rfl, rfl, rfl⟩

/-- Settles O6: the empty memory is in canonical form, and no flag is set. -/
theorem resetStateMeetsTheInvariant : Obligations.ResetStateMeetsTheInvariant where
  memory := reset_mem_wf
  flags := flagsLegal_reset

/-! ## HALT -/

/-- HALT has no operand byte, so that checks 1 and 2 pass at any address, 255 too. -/
theorem step_of_halt_opcode (hrun : s.run = .running) (hop : s.readMem s.pc = 0x01) : step s = exec .halt s :=
  step_of_fetch_ok hrun (fetch_of_opcode (o := .halt) hop s.pc.isLt)

/-- Settles O20: HALT makes none of checks 3 to 5, and the step that fetches its opcode is its meaning. -/
theorem haltStopsAtEveryAddress : Obligations.HaltStopsAtEveryAddress := by
  intro s
  have hexec : exec .halt s = .next { s with run := .halted } := Completes.halt.exec
  exact ⟨hexec, fun hrun hop => (step_of_halt_opcode hrun hop).trans hexec⟩

/-! ## Exit statuses -/

/-- Settles O10: the status depends on the cause alone, not on what the fault record holds, and this configuration
gives 3, 4 and 5 to the three causes that the source leaves open. -/
theorem exitStatusesFollowTheTerminalCondition : Obligations.ExitStatusesFollowTheTerminalCondition :=
  ⟨rfl, rfl, fun _ _ => rfl, rfl, rfl, fun _ _ => rfl, fun _ => rfl, fun _ => rfl⟩

end Sys2Proof.Machine
end
